-- ==== Sys2Proof/Word.lean ====
section
/-! DEFINITION. The two widths of the engine: a 16-bit word (00_scope.md R6, R11) and the 8-bit byte of
the host's streams (60_exceptions.md R214). -/
namespace Sys2Proof

/-- "a 16-bit unit of register or memory storage" (R11); addition, AND and complement of `BitVec 16`
are the engine's arithmetic modulo 2^16 (R8, R99). -/
abbrev Word := BitVec 16

/-- A byte of the host's input or output stream (R214). -/
abbrev Byte := BitVec 8

end Sys2Proof
end

