-- ==== Sys2Proof/Syntax.lean ====
section
/-! DEFINITION. The instructions, one constructor per row of spec/opcode_table.json, with the operand
fields of 30_encoding.md R63 and R68. Bits a format does not read (R69) are no operand. -/
namespace Sys2Proof

/-- The eight general registers R0-R7 (10_state.md R21). -/
inductive Reg where
  | r0 | r1 | r2 | r3 | r4 | r5 | r6 | r7
  deriving DecidableEq, Repr, Inhabited

/-- The sixteen values of the opcode field (30_encoding.md R62). -/
inductive Opcode where
  | br | add | ld | st | jsr | and | ldr | str | rti | not | ldi | sti | jmp | res | lea | trap
  deriving DecidableEq, Repr

/-- The instructions. `ret`, `nop`, `getc` … `halt` are rows of the table that spell certain words of JMP,
BR and TRAP (R73); a word of such a row is that row's constructor (log 23). -/
inductive Instr where
  /-- ADD, register mode (R100). -/
  | addReg (dr sr1 sr2 : Reg)
  /-- ADD, immediate mode (R101). -/
  | addImm (dr sr1 : Reg) (imm5 : BitVec 5)
  /-- AND, register mode (R102). -/
  | andReg (dr sr1 sr2 : Reg)
  /-- AND, immediate mode (R103). -/
  | andImm (dr sr1 : Reg) (imm5 : BitVec 5)
  /-- NOT (R104). -/
  | not (dr sr : Reg)
  /-- BR with at least one letter of NZP (R110). -/
  | br (n z p : Bool) (off9 : BitVec 9)
  /-- JMP through a register other than R7 (R111). -/
  | jmp (base : Reg)
  /-- JSR (R112). -/
  | jsr (off11 : BitVec 11)
  /-- JSRR (R113). -/
  | jsrr (base : Reg)
  /-- LD (R120). -/
  | ld (dr : Reg) (off9 : BitVec 9)
  /-- LDI (R121). -/
  | ldi (dr : Reg) (off9 : BitVec 9)
  /-- LDR (R122). -/
  | ldr (dr base : Reg) (off6 : BitVec 6)
  /-- LEA (R123). -/
  | lea (dr : Reg) (off9 : BitVec 9)
  /-- ST (R124). -/
  | st (sr : Reg) (off9 : BitVec 9)
  /-- STI (R125). -/
  | sti (sr : Reg) (off9 : BitVec 9)
  /-- STR (R126). -/
  | str (sr base : Reg) (off6 : BitVec 6)
  /-- TRAP with a vector that has no row of its own (R140, R147). -/
  | trap (vect8 : BitVec 8)
  /-- RTI (R160). -/
  | rti
  /-- RES (R161). -/
  | res
  /-- RET, the words of JMP R7 (R73, R111). -/
  | ret
  /-- NOP, the words of BR with NZP = 000 (R73, R110); its offset is not used. -/
  | nop (off9 : BitVec 9)
  /-- GETC, TRAP x20 (R141). -/
  | getc
  /-- OUT, TRAP x21 (R142). -/
  | out
  /-- PUTS, TRAP x22 (R143). -/
  | puts
  /-- IN, TRAP x23 (R144). -/
  | in_
  /-- PUTSP, TRAP x24 (R145). -/
  | putsp
  /-- HALT, TRAP x25 (R146). -/
  | halt
  deriving DecidableEq, Repr

end Sys2Proof
end

