-- ==== Sys2Proof/WellFormed.lean ====
section
/-! DEFINITION. The instruction terms that some word decodes to. Field widths are in the types; what is
left to check is that a word which a row of its own spells (R73) is not written as JMP, BR or TRAP. -/
namespace Sys2Proof

/-- A vector of the six trap routines (43_trap.md R140): the words of rows GETC … HALT. -/
def isRoutineVector (v : BitVec 8) : Bool :=
  decide (0x20#8 ≤ v) && decide (v ≤ 0x25#8)

/-- `br` names a flag, `jmp` is not RET's word, `trap` is no routine's word (log 23). -/
def Instr.wellFormed : Instr → Bool
  | .addReg _ _ _ => true
  | .addImm _ _ _ => true
  | .andReg _ _ _ => true
  | .andImm _ _ _ => true
  | .not _ _ => true
  | .br n z p _ => n || z || p
  | .jmp base => base != .r7
  | .jsr _ => true
  | .jsrr _ => true
  | .ld _ _ => true
  | .ldi _ _ => true
  | .ldr _ _ _ => true
  | .lea _ _ => true
  | .st _ _ => true
  | .sti _ _ => true
  | .str _ _ _ => true
  | .trap v => !isRoutineVector v
  | .rti => true
  | .res => true
  | .ret => true
  | .nop _ => true
  | .getc => true
  | .out => true
  | .puts => true
  | .in_ => true
  | .putsp => true
  | .halt => true

end Sys2Proof
end

