-- ==== Sys2Proof/Decode.lean ====
section
/-! DEFINITION. Decoding and encoding, from the tables of 30_encoding.md R62-R69 and
spec/opcode_table.json. Every 16-bit word decodes (R61); a byte string is refused only when it holds no
whole word. -/
namespace Sys2Proof

/-! ### Fields (R63, R68) -/

/-- Bits [15:12], the opcode. -/
def opcodeField (w : Word) : BitVec 4 := w.extractLsb' 12 4
/-- Bits [11:9]: DR, or SR of a store. -/
def drField (w : Word) : BitVec 3 := w.extractLsb' 9 3
/-- Bits [8:6]: SR, SR1 or BaseR. -/
def srField (w : Word) : BitVec 3 := w.extractLsb' 6 3
/-- Bits [2:0]: SR2. -/
def sr2Field (w : Word) : BitVec 3 := w.extractLsb' 0 3
/-- Bits [4:0]. -/
def imm5Field (w : Word) : BitVec 5 := w.extractLsb' 0 5
/-- Bits [5:0]. -/
def off6Field (w : Word) : BitVec 6 := w.extractLsb' 0 6
/-- Bits [8:0]. -/
def off9Field (w : Word) : BitVec 9 := w.extractLsb' 0 9
/-- Bits [10:0]. -/
def off11Field (w : Word) : BitVec 11 := w.extractLsb' 0 11
/-- Bits [7:0]. -/
def vect8Field (w : Word) : BitVec 8 := w.extractLsb' 0 8

/-- A 3-bit field of value i selects Ri (R21). -/
def Reg.ofField (f : BitVec 3) : Reg :=
  match f.getLsbD 2, f.getLsbD 1, f.getLsbD 0 with
  | false, false, false => .r0
  | false, false, true => .r1
  | false, true, false => .r2
  | false, true, true => .r3
  | true, false, false => .r4
  | true, false, true => .r5
  | true, true, false => .r6
  | true, true, true => .r7

/-- The opcode assignment of R62, read by its column of bits [15:12] (PRESUMED: fourteen of the sixteen
values are the published LC-3's, D1, log 1). -/
def Opcode.ofField (f : BitVec 4) : Opcode :=
  match f.getLsbD 3, f.getLsbD 2, f.getLsbD 1, f.getLsbD 0 with
  | false, false, false, false => .br
  | false, false, false, true => .add
  | false, false, true, false => .ld
  | false, false, true, true => .st
  | false, true, false, false => .jsr
  | false, true, false, true => .and
  | false, true, true, false => .ldr
  | false, true, true, true => .str
  | true, false, false, false => .rti
  | true, false, false, true => .not
  | true, false, true, false => .ldi
  | true, false, true, true => .sti
  | true, true, false, false => .jmp
  | true, true, false, true => .res
  | true, true, true, false => .lea
  | true, true, true, true => .trap

/-! ### Decoding -/

/-- A BR word: NOP's when it names no flag (R73). Bit 11 is n, bit 10 z, bit 9 p (R66; PRESUMED, D3,
log 3). -/
def decodeBr (n z p : Bool) (off9 : BitVec 9) : Instr :=
  if n || z || p then .br n z p off9 else .nop off9

/-- A JMP word: RET's when the base is R7 (R73). -/
def decodeJmp (base : Reg) : Instr :=
  if base = .r7 then .ret else .jmp base

/-- A TRAP word: the routine's row when the vector is one of the six (R140). -/
def decodeTrap (v : BitVec 8) : Instr :=
  if v = 0x20 then .getc
  else if v = 0x21 then .out
  else if v = 0x22 then .puts
  else if v = 0x23 then .in_
  else if v = 0x24 then .putsp
  else if v = 0x25 then .halt
  else .trap v

/-- The instruction of a word (R61: every word has one). Bit 5 of ADD and AND selects the immediate
(R64; PRESUMED, D2, log 2), bit 11 of 0x4 selects JSR (R65); unread bits are ignored (R69, D4, log 4). -/
def decode (w : Word) : Instr :=
  let dr := Reg.ofField (drField w)
  let sr := Reg.ofField (srField w)
  match Opcode.ofField (opcodeField w) with
  | .br => decodeBr (w.getLsbD 11) (w.getLsbD 10) (w.getLsbD 9) (off9Field w)
  | .add => if w.getLsbD 5 then .addImm dr sr (imm5Field w) else .addReg dr sr (Reg.ofField (sr2Field w))
  | .ld => .ld dr (off9Field w)
  | .st => .st dr (off9Field w)
  | .jsr => if w.getLsbD 11 then .jsr (off11Field w) else .jsrr sr
  | .and => if w.getLsbD 5 then .andImm dr sr (imm5Field w) else .andReg dr sr (Reg.ofField (sr2Field w))
  | .ldr => .ldr dr sr (off6Field w)
  | .str => .str dr sr (off6Field w)
  | .rti => .rti
  | .not => .not dr sr
  | .ldi => .ldi dr (off9Field w)
  | .sti => .sti dr (off9Field w)
  | .jmp => decodeJmp sr
  | .res => .res
  | .lea => .lea dr (off9Field w)
  | .trap => decodeTrap (vect8Field w)

/-- Why a byte string holds no instruction. -/
inductive DecodeError where
  /-- Fewer than the two bytes of a word (R60). -/
  | truncated
  deriving DecidableEq, Repr

/-- A word from its two bytes, high byte first, as the image stores it (20_memory.md R46 (c)). -/
def wordOfBytes (hi lo : Byte) : Word := hi ++ lo

/-- The instruction at the head of a byte string laid out as in the image, and the bytes after it. -/
def decodeBytes : List Byte → Except DecodeError (Instr × List Byte)
  | hi :: lo :: rest => .ok (decode (wordOfBytes hi lo), rest)
  | [_] => .error .truncated
  | [] => .error .truncated

/-- The host's question: the instruction read from a word given as a number whose bit 0 is the word's
bit 0; bits at and above `nbits` are 0. -/
def decodeTableWord (nbits w : Nat) : Option Instr :=
  let x : Word := BitVec.ofNat 16 (w % 2 ^ nbits)
  match decodeBytes [x.extractLsb' 8 8, x.extractLsb' 0 8] with
  | .ok (i, _) => some i
  | .error .truncated => none

/-! ### Encoding -/

/-- The 3-bit field that selects a register (R21). -/
def Reg.field : Reg → BitVec 3
  | .r0 => 0
  | .r1 => 1
  | .r2 => 2
  | .r3 => 3
  | .r4 => 4
  | .r5 => 5
  | .r6 => 6
  | .r7 => 7

/-- The opcode assignment of R62, by its column of hexadecimal values (log 1). -/
def Opcode.field : Opcode → BitVec 4
  | .br => 0x0
  | .add => 0x1
  | .ld => 0x2
  | .st => 0x3
  | .jsr => 0x4
  | .and => 0x5
  | .ldr => 0x6
  | .str => 0x7
  | .rti => 0x8
  | .not => 0x9
  | .ldi => 0xA
  | .sti => 0xB
  | .jmp => 0xC
  | .res => 0xD
  | .lea => 0xE
  | .trap => 0xF

/-- A field in its place: bits [lo + n - 1 : lo] of a word, 0 elsewhere (R7). -/
def atBit {n : Nat} (lo : Nat) (f : BitVec n) : Word := f.setWidth 16 <<< lo

/-- Formats PC9 and PC9-ST (R63): DR or SR [11:9], off9 [8:0]. -/
def wordPC9 (op : Opcode) (r : Reg) (off9 : BitVec 9) : Word :=
  atBit 12 op.field ||| atBit 9 r.field ||| atBit 0 off9

/-- Format OP-REG (R63): DR [11:9], SR1 [8:6], 0 [5], SR2 [2:0]; unread bits [4:3] written 00. -/
def wordOpReg (op : Opcode) (dr sr1 sr2 : Reg) : Word :=
  atBit 12 op.field ||| atBit 9 dr.field ||| atBit 6 sr1.field ||| atBit 0 sr2.field

/-- Format OP-IMM (R63): DR [11:9], SR1 [8:6], 1 [5], imm5 [4:0]. -/
def wordOpImm (op : Opcode) (dr sr1 : Reg) (imm5 : BitVec 5) : Word :=
  atBit 12 op.field ||| atBit 9 dr.field ||| atBit 6 sr1.field ||| atBit 5 1#1 ||| atBit 0 imm5

/-- Formats BASE6 and BASE6-ST (R63): DR or SR [11:9], BaseR [8:6], off6 [5:0]. -/
def wordBase6 (op : Opcode) (r base : Reg) (off6 : BitVec 6) : Word :=
  atBit 12 op.field ||| atBit 9 r.field ||| atBit 6 base.field ||| atBit 0 off6

/-- Format NOT (R63): DR [11:9], SR [8:6]; unread bits [5:0] written 111111. -/
def wordNot (dr sr : Reg) : Word :=
  atBit 12 Opcode.not.field ||| atBit 9 dr.field ||| atBit 6 sr.field ||| atBit 0 0x3F#6

/-- Format BR (R63): n [11], z [10], p [9], off9 [8:0]. -/
def wordBr (n z p : Bool) (off9 : BitVec 9) : Word :=
  atBit 12 Opcode.br.field ||| atBit 11 (BitVec.ofBool n) ||| atBit 10 (BitVec.ofBool z) |||
    atBit 9 (BitVec.ofBool p) ||| atBit 0 off9

/-- Format JMP (R63): BaseR [8:6]; unread bits [11:9] and [5:0] written 0. -/
def wordJmp (base : Reg) : Word :=
  atBit 12 Opcode.jmp.field ||| atBit 6 base.field

/-- Format JSR (R63): 1 [11], off11 [10:0]. -/
def wordJsr (off11 : BitVec 11) : Word :=
  atBit 12 Opcode.jsr.field ||| atBit 11 1#1 ||| atBit 0 off11

/-- Format JSRR (R63): 0 [11], BaseR [8:6]; unread bits [10:9] and [5:0] written 0. -/
def wordJsrr (base : Reg) : Word :=
  atBit 12 Opcode.jsr.field ||| atBit 6 base.field

/-- Format TRAP (R63): vect8 [7:0]; unread bits [11:8] written 0. -/
def wordTrap (v : BitVec 8) : Word :=
  atBit 12 Opcode.trap.field ||| atBit 0 v

/-- Format RSV (R63): unread bits [11:0] written 0. -/
def wordRsv (op : Opcode) : Word := atBit 12 op.field

/-- The word of an instruction (R60: one word). Unread bits (R69) are written as the spec's examples
write them: 111111 in NOT, 0 elsewhere (DESIGN CHOICE, log 29). -/
def encode : Instr → Word
  | .addReg dr sr1 sr2 => wordOpReg .add dr sr1 sr2
  | .addImm dr sr1 imm5 => wordOpImm .add dr sr1 imm5
  | .andReg dr sr1 sr2 => wordOpReg .and dr sr1 sr2
  | .andImm dr sr1 imm5 => wordOpImm .and dr sr1 imm5
  | .not dr sr => wordNot dr sr
  | .br n z p off9 => wordBr n z p off9
  | .jmp base => wordJmp base
  | .jsr off11 => wordJsr off11
  | .jsrr base => wordJsrr base
  | .ld dr off9 => wordPC9 .ld dr off9
  | .ldi dr off9 => wordPC9 .ldi dr off9
  | .ldr dr base off6 => wordBase6 .ldr dr base off6
  | .lea dr off9 => wordPC9 .lea dr off9
  | .st sr off9 => wordPC9 .st sr off9
  | .sti sr off9 => wordPC9 .sti sr off9
  | .str sr base off6 => wordBase6 .str sr base off6
  | .trap v => wordTrap v
  | .rti => wordRsv .rti
  | .res => wordRsv .res
  | .ret => wordJmp .r7
  | .nop off9 => wordBr false false false off9
  | .getc => wordTrap 0x20
  | .out => wordTrap 0x21
  | .puts => wordTrap 0x22
  | .in_ => wordTrap 0x23
  | .putsp => wordTrap 0x24
  | .halt => wordTrap 0x25

/-- The bits an instruction's format marks `x` in R63 (R69 lists them): they are not read. -/
def unreadBits : Instr → Word
  | .addReg _ _ _ => 0x0018
  | .addImm _ _ _ => 0
  | .andReg _ _ _ => 0x0018
  | .andImm _ _ _ => 0
  | .not _ _ => 0x003F
  | .br _ _ _ _ => 0
  | .jmp _ => 0x0E3F
  | .jsr _ => 0
  | .jsrr _ => 0x063F
  | .ld _ _ => 0
  | .ldi _ _ => 0
  | .ldr _ _ _ => 0
  | .lea _ _ => 0
  | .st _ _ => 0
  | .sti _ _ => 0
  | .str _ _ _ => 0
  | .trap _ => 0x0F00
  | .rti => 0x0FFF
  | .res => 0x0FFF
  | .ret => 0x0E3F
  | .nop _ => 0
  | .getc => 0x0F00
  | .out => 0x0F00
  | .puts => 0x0F00
  | .in_ => 0x0F00
  | .putsp => 0x0F00
  | .halt => 0x0F00

end Sys2Proof
end

