-- ==== Sys2Proof/Config.lean ====
section
/-! DEFINITION. What the spec leaves to the model: the prompt of IN, and the host's answers. None of the
constants has a body, so no proof can learn a value of one. -/
namespace Sys2Proof

/-- What a keyboard poll is answered (R214 `HostPoll`); the byte of `present` is the next one of the
input stream. -/
inductive PollKind where
  | present
  | absent
  | fail
  deriving DecidableEq, Repr, Inhabited

/-- What a byte read is answered (R214 `HostGetByte`); the byte of `byte` is the next one of the input
stream. -/
inductive ReadKind where
  | byte
  | fail
  deriving DecidableEq, Repr, Inhabited

/-- What a byte write is answered (R214 `HostPutByte`). -/
inductive WriteKind where
  | ok
  | fail
  deriving DecidableEq, Repr, Inhabited

/-- The byte string IN writes before it reads: OPEN in the spec (R6, D13). DESIGN CHOICE (log 13). -/
opaque Config.inPrompt : List Byte

/-- The host's answer to a poll beyond the answers laid down in the state: a free draw (D24, log 18). -/
opaque Config.freePoll : Nat → PollKind

/-- The host's answer to a byte read beyond the answers laid down in the state: a free draw (D24, log 18). -/
opaque Config.freeRead : Nat → ReadKind

/-- The host's answer to a byte write beyond the answers laid down in the state: a free draw (D24, log 18). -/
opaque Config.freeWrite : Nat → WriteKind

/-- The input stream's next byte beyond the bytes laid down in the state: a free draw (D24, log 18). -/
opaque Config.freeByte : Nat → Byte

end Sys2Proof
end

