-- ==== Sys2Proof/Machine/State.lean ====
section
/-! DEFINITION. The engine's whole state (10_state.md R20) and the host's side of its three operations
(60_exceptions.md R214), as plain data; the reasons a step stops; the state after reset (R31). -/
namespace Sys2Proof.Machine

/-- The eight general registers, each a word of its own (R21). -/
structure RegFile where
  r0 : Word
  r1 : Word
  r2 : Word
  r3 : Word
  r4 : Word
  r5 : Word
  r6 : Word
  r7 : Word
  deriving DecidableEq, Repr

/-- COND: no flag, or exactly one of POS, ZERO, NEG (R24). -/
inductive Cond where
  /-- 0b000, before the first flag update (C1, log 28). -/
  | none
  | pos
  | zero
  | neg
  deriving DecidableEq, Repr

/-- Why the engine stopped with an error (R200). -/
inductive FatalReason where
  /-- RTI or RES was dispatched; the opcode (R160, R161). -/
  | unsupportedOpcode (op : BitVec 4)
  /-- TRAP named no routine; the vector (R147). -/
  | unknownTrapVector (v : BitVec 8)
  /-- The instruction at 0xFFFF was fetched (R75). -/
  | pcOutOfRange
  /-- The host reported a failure (R42, R141-R145). -/
  | ioError
  deriving DecidableEq, Repr

/-- The run status (R20, R28). -/
inductive Status where
  | running
  | halted
  | fatal (r : FatalReason)
  deriving DecidableEq, Repr

/-- Memory: the cells that do not read 0x0000, by rising address. A cell is one 16-bit word, the only
unit the engine addresses (R40, log 22); an unlisted cell reads 0x0000 (R31, D10, log 10). -/
abbrev Memory := List (Nat × Word)

/-- The host's side (R214): the answers it gives, in order, as far as they are laid down, then free draws
(D24, log 18); and the bytes it has accepted. The lists are inputs of the model, not engine state. -/
structure HostLink where
  /-- The one input stream, next byte first. -/
  input : List Byte
  /-- Answers to the coming polls; `none` is a poll the host never answers. -/
  polls : List (Option PollKind)
  /-- Answers to the coming byte reads; `none` is a read the host never answers. -/
  reads : List (Option ReadKind)
  /-- Answers to the coming byte writes. -/
  writes : List WriteKind
  /-- How many free draws were taken: the index of the next. -/
  draws : Nat
  /-- The one output stream, first byte first. -/
  output : List Byte
  deriving DecidableEq, Repr

/-- The state tuple of R20, and the host's side. -/
structure State where
  regs : RegFile
  pc : Word
  cond : Cond
  mem : Memory
  status : Status
  host : HostLink
  deriving DecidableEq, Repr

/-- Why there is no next state. -/
inductive Fault where
  /-- Raised by `step` alone: TRAP HALT has ended the run, no further cycle (R74, R213). Safe. -/
  | halted
  /-- Raised by `step` alone: a fatal error has ended the run, no further cycle (R200, R202). Safe. -/
  | fatal (r : FatalReason)
  /-- Raised by a poll, GETC or IN: the host never answers, so the cycle never ends (R216, D24). Safe. -/
  | hostSilent
  /-- Raised by PUTS (PUTSP never reaches it): no terminator within the cells the model walks (R143, D21,
  log 20). Safe: the routine is stopped where the engine walks on. -/
  | stringUnterminated
  deriving DecidableEq, Repr

/-- Why the model gives no meaning. -/
inductive Refusal where
  /-- An arm of `exec` that has no meaning yet. Safe. -/
  | notModelled (mnemonic : String)
  /-- Raised by `boot`: an image without an origin word (D11, 91_not_in_source.md 70.2). Safe. -/
  | imageEmpty
  /-- Raised by `boot`: an image that ends mid-word, a load error (R215, R242). Safe. -/
  | imageMidWord
  /-- Raised by `boot`: an image whose words would pass 0xFFFF (R242, D11). Safe. -/
  | imagePastTop
  deriving DecidableEq, Repr

/-- All eight registers 0x0000 (R31). -/
def RegFile.reset : RegFile :=
  { r0 := 0, r1 := 0, r2 := 0, r3 := 0, r4 := 0, r5 := 0, r6 := 0, r7 := 0 }

/-- Nothing laid down, nothing written. DESIGN CHOICE (log 25): no statement rests on these values. -/
def HostLink.reset : HostLink :=
  { input := [], polls := [], reads := [], writes := [], draws := 0, output := [] }

/-- The table of R31, before the loader writes the image. -/
def State.reset : State :=
  { regs := RegFile.reset, pc := 0x3000, cond := .none, mem := [], status := .running, host := HostLink.reset }

end Sys2Proof.Machine
end

