-- ==== Sys2Proof/Machine/Ops.lean ====
section
/-! DEFINITION. The named operations over registers, memory, the host and the run status; fetching; and
taking a fatal error, the engine's only exception (60_exceptions.md R200). -/
namespace Sys2Proof.Machine

/-! ### General registers (10_state.md R21) -/

/-- `R[i]`. -/
def RegFile.read (f : RegFile) : Reg → Word
  | .r0 => f.r0
  | .r1 => f.r1
  | .r2 => f.r2
  | .r3 => f.r3
  | .r4 => f.r4
  | .r5 => f.r5
  | .r6 => f.r6
  | .r7 => f.r7

/-- `R[i] <- v`. -/
def RegFile.write (f : RegFile) (r : Reg) (v : Word) : RegFile :=
  match r with
  | .r0 => { f with r0 := v }
  | .r1 => { f with r1 := v }
  | .r2 => { f with r2 := v }
  | .r3 => { f with r3 := v }
  | .r4 => { f with r4 := v }
  | .r5 => { f with r5 := v }
  | .r6 => { f with r6 := v }
  | .r7 => { f with r7 := v }

/-- `R[i]` of a state. -/
def State.reg (s : State) (r : Reg) : Word := s.regs.read r

/-- `R[i] <- v` on a state. -/
def State.setReg (s : State) (r : Reg) (v : Word) : State := { s with regs := s.regs.write r v }

/-- `PC <- v` (R23). -/
def State.setPc (s : State) (v : Word) : State := { s with pc := v }

/-- `COND <- c` (R24). -/
def State.setCond (s : State) (c : Cond) : State := { s with cond := c }

/-- `status <- v` (R28). -/
def State.setStatus (s : State) (v : Status) : State := { s with status := v }

/-- The host's side after an operation of R214. -/
def State.setHost (s : State) (h : HostLink) : State := { s with host := h }

/-! ### Memory cells (20_memory.md R40) -/

/-- What a cell the loader does not write reads as (R31, D10, log 10). -/
def unlistedCell : Word := 0x0000

/-- The cell with address `k`. -/
def Memory.lookup : Memory → Nat → Word
  | [], _ => unlistedCell
  | (k', v) :: rest, k => if k = k' then v else Memory.lookup rest k

/-- The cells without cell `k`. -/
def Memory.erase : Memory → Nat → Memory
  | [], _ => []
  | (k', v') :: rest, k => if k = k' then Memory.erase rest k else (k', v') :: Memory.erase rest k

/-- The cells with `v` listed for cell `k`, at its place in the rising order. -/
def Memory.insert : Memory → Nat → Word → Memory
  | [], k, v => [(k, v)]
  | (k', v') :: rest, k, v =>
    if k < k' then (k, v) :: (k', v') :: rest
    else if k = k' then (k, v) :: rest
    else (k', v') :: Memory.insert rest k v

/-- Cell `k` set to `v`, in canonical form: an unlisted cell's value is not listed. -/
def Memory.store (m : Memory) (k : Nat) (v : Word) : Memory :=
  if v = unlistedCell then m.erase k else m.insert k v

/-- Addresses rise from `lo`, lie in 0-65535 (R40), and no listed cell holds the unlisted value. -/
def Memory.wfFrom (lo : Nat) : Memory → Bool
  | [] => true
  | (k, v) :: rest => decide (lo ≤ k) && decide (k < 65536) && decide (v ≠ unlistedCell) && Memory.wfFrom (k + 1) rest

/-- The canonical form of memory. -/
def Memory.wf (m : Memory) : Bool := Memory.wfFrom 0 m

/-- The word stored at a 16-bit address: M[a], with no side effect. -/
def Memory.read (m : Memory) (a : Word) : Word := Memory.lookup m a.toNat

/-- M[a] <- v. -/
def Memory.write (m : Memory) (a v : Word) : Memory := Memory.store m a.toNat v

/-- M[a] of a state, with no side effect. -/
def State.cell (s : State) (a : Word) : Word := s.mem.read a

/-- `MemWrite(a, 1, v)` (R43): every address, no side effect. -/
def memWrite (a v : Word) (s : State) : State := { s with mem := s.mem.write a v }

/-- The keyboard status cell (R49). -/
def kbsr : Word := 0xFE00

/-- The keyboard data cell (R49). -/
def kbdr : Word := 0xFE02

/-! ### The host (60_exceptions.md R214) -/

/-- The answers of `HostPoll()`. -/
inductive PollAnswer where
  | present (b : Byte)
  | absent
  | fail
  deriving DecidableEq, Repr

/-- The answers of `HostGetByte()`. -/
inductive GetAnswer where
  | byte (b : Byte)
  | fail
  deriving DecidableEq, Repr

/-- Takes the next byte of the one input stream: "consumed" (R214, D8). -/
def HostLink.takeByte (h : HostLink) : Byte × HostLink :=
  match h.input with
  | b :: rest => (b, { h with input := rest })
  | [] => (Config.freeByte h.draws, { h with draws := h.draws + 1 })

/-- Draws the host's choice at a poll; `none`: it never answers. -/
def HostLink.drawPoll (h : HostLink) : Option PollKind × HostLink :=
  match h.polls with
  | k :: rest => (k, { h with polls := rest })
  | [] => (some (Config.freePoll h.draws), { h with draws := h.draws + 1 })

/-- Draws the host's choice at a byte read; `none`: it never answers. -/
def HostLink.drawRead (h : HostLink) : Option ReadKind × HostLink :=
  match h.reads with
  | k :: rest => (k, { h with reads := rest })
  | [] => (some (Config.freeRead h.draws), { h with draws := h.draws + 1 })

/-- Draws the host's choice at a byte write; a write always has an answer (R246: "a poll, GETC or IN
blocks"; DEDUCED, log 26). -/
def HostLink.drawWrite (h : HostLink) : WriteKind × HostLink :=
  match h.writes with
  | k :: rest => (k, { h with writes := rest })
  | [] => (Config.freeWrite h.draws, { h with draws := h.draws + 1 })

/-- A poll's answer of a kind: `Present(b)` takes the next input byte (D8, log 8). -/
def HostLink.answerPoll (h : HostLink) (k : PollKind) : PollAnswer × HostLink :=
  match k with
  | .present => (.present h.takeByte.1, h.takeByte.2)
  | .absent => (.absent, h)
  | .fail => (.fail, h)

/-- A byte read's answer of a kind: `Byte(b)` takes the next input byte. -/
def HostLink.answerRead (h : HostLink) (k : ReadKind) : GetAnswer × HostLink :=
  match k with
  | .byte => (.byte h.takeByte.1, h.takeByte.2)
  | .fail => (.fail, h)

/-- `HostPoll()`; `none` when the host never answers. -/
def hostPoll (h : HostLink) : Option (PollAnswer × HostLink) :=
  match h.drawPoll with
  | (some k, h') => some (h'.answerPoll k)
  | (none, _) => none

/-- `HostGetByte()`; `none` when the host never answers. -/
def hostGetByte (h : HostLink) : Option (GetAnswer × HostLink) :=
  match h.drawRead with
  | (some k, h') => some (h'.answerRead k)
  | (none, _) => none

/-- `HostPutByte(b)`: an accepted byte joins the output stream, in program order (R148, D20, log 19). -/
def hostPutByte (b : Byte) (h : HostLink) : WriteKind × HostLink :=
  match h.drawWrite with
  | (.ok, h') => (.ok, { h' with output := h'.output ++ [b] })
  | (.fail, h') => (.fail, h')

/-! ### Fatal errors (60_exceptions.md R200, R201) -/

/-- `raise Fatal(reason)`: "sets status <- Fatal(reason) and ends the run"; "no register, flag or memory
cell is changed by the error itself". There is no handler and no return (R205, R206). -/
def raiseFatal (r : FatalReason) (s : State) : State := s.setStatus (.fatal r)

/-- How a part of a cycle ends: it is done, with a result; it meets a fatal error in some state; or it
never ends. -/
inductive Effect (α : Type) where
  | done (a : α) (s : State)
  | fatal (r : FatalReason) (s : State)
  | stuck (f : Fault)
  deriving DecidableEq, Repr

/-- Goes on with the cycle after a part of it; a fatal error keeps every effect so far (R201). -/
def Effect.andThen {α : Type} (e : Effect α) (k : α → State → Host.Outcome State Fault Refusal) :
    Host.Outcome State Fault Refusal :=
  match e with
  | .done a s => k a s
  | .fatal r s => .next (raiseFatal r s)
  | .stuck f => .fault f

/-! ### Memory reads and the keyboard (20_memory.md R41, R42) -/

/-- `zext_8` (R9). -/
def zext8 (b : Byte) : Word := b.setWidth 16

/-- The keyboard cells after a poll's answer; a failure is fatal (D9, log 9). -/
def pollCells (a : PollAnswer) (s : State) : Effect Unit :=
  match a with
  | .present b => .done () (memWrite kbdr (zext8 b) (memWrite kbsr 0x8000 s))
  | .absent => .done () (memWrite kbsr 0x0000 s)
  | .fail => .fatal .ioError s

/-- `KeyboardPoll()` (R42). -/
def keyboardPoll (s : State) : Effect Unit :=
  match hostPoll s.host with
  | some (a, h) => pollCells a (s.setHost h)
  | none => .stuck .hostSilent

/-- `MemRead(a, 1)` (R41): the only read there is, so every read of 0xFE00 polls (D7, log 7). -/
def memRead (a : Word) (s : State) : Effect Word :=
  if a = kbsr then
    match keyboardPoll s with
    | .done _ s' => .done (s'.cell a) s'
    | .fatal r s' => .fatal r s'
    | .stuck f => .stuck f
  else .done (s.cell a) s

/-! ### Fetch (30_encoding.md R75) -/

/-- The last address of memory: its increment would leave memory (R75, C2). -/
def topAddress : Word := 0xFFFF

/-- The cycle up to the dispatch: read at PC, then the increment, which is fatal from 0xFFFF (D5, log 5). -/
def fetch (s : State) : Effect Word :=
  match memRead s.pc s with
  | .done w s' => if s.pc = topAddress then .fatal .pcOutOfRange s' else .done w (s'.setPc (s.pc + 1))
  | .fatal r s' => .fatal r s'
  | .stuck f => .stuck f

end Sys2Proof.Machine
end

