-- ==== Sys2Proof/Machine/Operands.lean ====
section
/-! DEFINITION. Operand forms: sign extension (30_encoding.md R67, R68), the halves of a word
(20_memory.md R46), and the effective addresses of 42_load_store.md R119. -/
namespace Sys2Proof.Machine

/-- `sext_N` as R67 states it: if bit N-1 of the field is 1, the field OR (0xFFFF << N), else the field. -/
def sext {n : Nat} (x : BitVec n) : Word :=
  if x.msb then x.setWidth 16 ||| (0xFFFF#16 <<< n) else x.setWidth 16

/-- Bits [7:0]: the byte OUT and PUTS emit, the first PUTSP emits. -/
def lowByte (w : Word) : Byte := w.extractLsb' 0 8

/-- Bits [15:8]: the second byte PUTSP emits. -/
def highByte (w : Word) : Byte := w.extractLsb' 8 8

/-- `PC + sext_N(off)`, modulo 2^16 (R45, D6, log 6): the PC is already past the instruction (R23). -/
def pcRelative {n : Nat} (off : BitVec n) (s : State) : Word := s.pc + sext off

/-- `R[BaseR] + sext_6(off6)`, modulo 2^16 (R45). -/
def baseOffset (base : Reg) (off6 : BitVec 6) (s : State) : Word := s.reg base + sext off6

end Sys2Proof.Machine
end

