-- ==== Sys2Proof/Machine/Flags.lean ====
section
/-! DEFINITION. The condition flags: `setcc` (10_state.md R25), the bits of COND (R24) and the test of BR
(30_encoding.md R66). -/
namespace Sys2Proof.Machine

/-- The flag of a written value (R25). -/
def condOf (v : Word) : Cond :=
  if v = 0x0000 then .zero
  else if v.getLsbD 15 then .neg
  else .pos

/-- `setcc(v)` (R25). -/
def setcc (v : Word) (s : State) : State := s.setCond (condOf v)

/-- COND as a 3-bit value (R24; PRESUMED, D3, log 3). -/
def Cond.bits : Cond → BitVec 3
  | .none => 0b000
  | .pos => 0b001
  | .zero => 0b010
  | .neg => 0b100

/-- NZP as the number n·4 + z·2 + p (R66). -/
def nzpBits (n z p : Bool) : BitVec 3 :=
  BitVec.ofBool n ++ BitVec.ofBool z ++ BitVec.ofBool p

/-- `(NZP & COND) ≠ 0` (R66, R110). -/
def branchTaken (n z p : Bool) (c : Cond) : Bool :=
  decide (nzpBits n z p &&& c.bits ≠ 0)

/-- `R[DR] <- v; setcc(v)`: the end of every flag-updating instruction (R26). -/
def writeResult (dr : Reg) (v : Word) (s : State) : State := setcc v (s.setReg dr v)

end Sys2Proof.Machine
end

