-- ==== Sys2Proof/Machine/Control.lean ====
section
/-! DEFINITION. BR, JMP, JSR, JSRR and the rows NOP and RET (41_control.md). PC already holds A + 1 (R23);
targets wrap modulo 2^16 (R109); no flag changes (R26). -/
namespace Sys2Proof.Machine

/-- `if (NZP & COND) != 0 then PC <- PC + sext_9(off9)` (R110). -/
def branchIf (n z p : Bool) (off9 : BitVec 9) (s : State) : State :=
  if branchTaken n z p s.cond then s.setPc (pcRelative off9 s) else s

/-- `PC <- R[BaseR]` (R111). -/
def jumpThrough (base : Reg) (s : State) : State := s.setPc (s.reg base)

/-- `R[7] <- PC`, the post-increment value (R112, R113). -/
def linkR7 (s : State) : State := s.setReg .r7 s.pc

/-- BR (R110). -/
def execBr (n z p : Bool) (off9 : BitVec 9) (s : State) : Host.Outcome State Fault Refusal :=
  .next (branchIf n z p off9 s)

/-- NOP: BR with NZP = 000, which never branches (R73, R110). -/
def execNop (off9 : BitVec 9) (s : State) : Host.Outcome State Fault Refusal :=
  .next (branchIf false false false off9 s)

/-- JMP (R111). -/
def execJmp (base : Reg) (s : State) : Host.Outcome State Fault Refusal :=
  .next (jumpThrough base s)

/-- RET: JMP R7 (R73, R111). -/
def execRet (s : State) : Host.Outcome State Fault Refusal :=
  .next (jumpThrough .r7 s)

/-- JSR (R112): R7 <- PC, then PC <- PC + sext_11(off11). -/
def execJsr (off11 : BitVec 11) (s : State) : Host.Outcome State Fault Refusal :=
  .next ((linkR7 s).setPc (pcRelative off11 s))

/-- JSRR (R113): R7 <- PC, then PC <- R[BaseR], read after the write of R7 (D12, log 12). -/
def execJsrr (base : Reg) (s : State) : Host.Outcome State Fault Refusal :=
  .next (jumpThrough base (linkR7 s))

end Sys2Proof.Machine
end

