-- ==== Sys2Proof/Machine/LoadStore.lean ====
section
/-! DEFINITION. LD, LDI, LDR, LEA, ST, STI, STR (42_load_store.md). Reads go through `memRead`, which polls
at 0xFE00; a fatal read leaves the later steps undone (R127). -/
namespace Sys2Proof.Machine

/-- LD (R120). -/
def execLd (dr : Reg) (off9 : BitVec 9) (s : State) : Host.Outcome State Fault Refusal :=
  (memRead (pcRelative off9 s) s).andThen fun v s' => .next (writeResult dr v s')

/-- LDI (R121): the pointer cell, then the word it points to. -/
def execLdi (dr : Reg) (off9 : BitVec 9) (s : State) : Host.Outcome State Fault Refusal :=
  (memRead (pcRelative off9 s) s).andThen fun p s' =>
    (memRead p s').andThen fun v s'' => .next (writeResult dr v s'')

/-- LDR (R122): the base is read before DR is written. -/
def execLdr (dr base : Reg) (off6 : BitVec 6) (s : State) : Host.Outcome State Fault Refusal :=
  (memRead (baseOffset base off6 s) s).andThen fun v s' => .next (writeResult dr v s')

/-- LEA (R123): the address itself, no memory access. -/
def execLea (dr : Reg) (off9 : BitVec 9) (s : State) : Host.Outcome State Fault Refusal :=
  .next (writeResult dr (pcRelative off9 s) s)

/-- ST (R124). -/
def execSt (sr : Reg) (off9 : BitVec 9) (s : State) : Host.Outcome State Fault Refusal :=
  .next (memWrite (pcRelative off9 s) (s.reg sr) s)

/-- STI (R125): the pointer cell is read, then the word it points to is written. -/
def execSti (sr : Reg) (off9 : BitVec 9) (s : State) : Host.Outcome State Fault Refusal :=
  (memRead (pcRelative off9 s) s).andThen fun p s' => .next (memWrite p (s'.reg sr) s')

/-- STR (R126). -/
def execStr (sr base : Reg) (off6 : BitVec 6) (s : State) : Host.Outcome State Fault Refusal :=
  .next (memWrite (baseOffset base off6 s) (s.reg sr) s)

end Sys2Proof.Machine
end

