-- ==== Sys2Proof/Machine/Operate.lean ====
section
/-! DEFINITION. ADD, AND and NOT (40_operate.md). Operands are read before the destination is written. -/
namespace Sys2Proof.Machine

/-- ADD, register mode (R100): DR <- SR1 + SR2 modulo 2^16, setcc. -/
def execAddReg (dr sr1 sr2 : Reg) (s : State) : Host.Outcome State Fault Refusal :=
  .next (writeResult dr (s.reg sr1 + s.reg sr2) s)

/-- ADD, immediate mode (R101): DR <- SR1 + sext_5(imm5) modulo 2^16, setcc. -/
def execAddImm (dr sr1 : Reg) (imm5 : BitVec 5) (s : State) : Host.Outcome State Fault Refusal :=
  .next (writeResult dr (s.reg sr1 + sext imm5) s)

/-- AND, register mode (R102): DR <- SR1 & SR2, setcc. -/
def execAndReg (dr sr1 sr2 : Reg) (s : State) : Host.Outcome State Fault Refusal :=
  .next (writeResult dr (s.reg sr1 &&& s.reg sr2) s)

/-- AND, immediate mode (R103): DR <- SR1 & sext_5(imm5), setcc. -/
def execAndImm (dr sr1 : Reg) (imm5 : BitVec 5) (s : State) : Host.Outcome State Fault Refusal :=
  .next (writeResult dr (s.reg sr1 &&& sext imm5) s)

/-- NOT (R104): DR <- the bitwise complement of SR, setcc. -/
def execNot (dr sr : Reg) (s : State) : Host.Outcome State Fault Refusal :=
  .next (writeResult dr (~~~ (s.reg sr)) s)

end Sys2Proof.Machine
end

