-- ==== Sys2Proof/Machine/Reserved.lean ====
section
/-! DEFINITION. RTI and RES, fatal at dispatch (44_reserved.md). -/
namespace Sys2Proof.Machine

/-- RTI (R160). -/
def execRti (s : State) : Host.Outcome State Fault Refusal :=
  .next (raiseFatal (.unsupportedOpcode 0x8) s)

/-- RES (R161). -/
def execRes (s : State) : Host.Outcome State Fault Refusal :=
  .next (raiseFatal (.unsupportedOpcode 0xD) s)

end Sys2Proof.Machine
end

