-- ==== Sys2Proof/Machine/Routines.lean ====
section
/-! DEFINITION. The six trap routines, behaviour of the engine itself, each complete within its cycle
(43_trap.md R141-R146, R148). None changes COND or R7 (R149). -/
namespace Sys2Proof.Machine

/-- One `HostPutByte`, and what the state is after it. -/
def putByte (b : Byte) (s : State) : WriteKind × State :=
  ((hostPutByte b s.host).1, s.setHost (hostPutByte b s.host).2)

/-- `HostPutByte` of each byte in order, up to the first failure. -/
def putBytes : List Byte → State → WriteKind × State
  | [], s => (.ok, s)
  | b :: rest, s =>
    match putByte b s with
    | (.ok, s') => putBytes rest s'
    | (.fail, s') => (.fail, s')

/-- The end of a routine whose last act was a write: a failed write is fatal (R214, D20). -/
def settleWrite : WriteKind × State → State
  | (.ok, s) => s
  | (.fail, s) => raiseFatal .ioError s

/-- GETC's use of an answer (R141). -/
def getcAnswer (a : GetAnswer) (s : State) : State :=
  match a with
  | .byte b => s.setReg .r0 (zext8 b)
  | .fail => raiseFatal .ioError s

/-- GETC (R141): one input byte into R0, no echo; the keyboard cells stay (D16, log 16). -/
def routineGetc (s : State) : Host.Outcome State Fault Refusal :=
  match hostGetByte s.host with
  | some (a, h) => .next (getcAnswer a (s.setHost h))
  | none => .fault .hostSilent

/-- OUT (R142): the low 8 bits of R0. -/
def routineOut (s : State) : Host.Outcome State Fault Refusal :=
  .next (settleWrite (putByte (lowByte (s.reg .r0)) s))

/-- How many cells the model lets a string walk read: every cell once for each poll answer laid down, and
twice more (log 20). A walk that ends ends within them once enough poll answers are laid down. -/
def stringFuel (s : State) : Nat := 65536 * (s.host.polls.length + 2)

/-- The loop of PUTS (R143) from cell `a`, reading at most the given number of cells. -/
def putsLoop : Nat → Word → State → Host.Outcome State Fault Refusal
  | 0, _, _ => .fault .stringUnterminated
  | n + 1, a, s =>
    (memRead a s).andThen fun c s' =>
      if c = 0x0000 then .next s'
      else
        match putByte (lowByte c) s' with
        | (.ok, s'') => putsLoop n (a + 1) s''
        | (.fail, s'') => .next (raiseFatal .ioError s'')

/-- PUTS (R143). -/
def routinePuts (s : State) : Host.Outcome State Fault Refusal :=
  putsLoop (stringFuel s) (s.reg .r0) s

/-- The bytes PUTSP emits of a cell: the low byte, then the high byte if it is not zero (R145). -/
def packedBytes (c : Word) : List Byte :=
  if highByte c = 0x00 then [lowByte c] else [lowByte c, highByte c]

/-- The loop of PUTSP (R145) from cell `a`, reading at most the given number of cells. -/
def putspLoop : Nat → Word → State → Host.Outcome State Fault Refusal
  | 0, _, _ => .fault .stringUnterminated
  | n + 1, a, s =>
    (memRead a s).andThen fun c s' =>
      if lowByte c = 0x00 then .next s'
      else
        match putBytes (packedBytes c) s' with
        | (.ok, s'') => putspLoop n (a + 1) s''
        | (.fail, s'') => .next (raiseFatal .ioError s'')

/-- PUTSP (R145). -/
def routinePutsp (s : State) : Host.Outcome State Fault Refusal :=
  putspLoop (stringFuel s) (s.reg .r0) s

/-- IN's use of an answer (R144): R0 is written before the echo (D17, log 17). -/
def inAnswer (a : GetAnswer) (s : State) : State :=
  match a with
  | .byte b => settleWrite (putByte b (s.setReg .r0 (zext8 b)))
  | .fail => raiseFatal .ioError s

/-- IN (R144): the prompt, one input byte, its echo, R0. -/
def routineIn (s : State) : Host.Outcome State Fault Refusal :=
  match putBytes Config.inPrompt s with
  | (.ok, s') =>
    match hostGetByte s'.host with
    | some (a, h) => .next (inAnswer a (s'.setHost h))
    | none => .fault .hostSilent
  | (.fail, s') => .next (raiseFatal .ioError s')

/-- HALT (R146): status <- Halted, nothing written (D14, log 14). -/
def routineHalt (s : State) : Host.Outcome State Fault Refusal :=
  .next (s.setStatus .halted)

end Sys2Proof.Machine
end

