-- ==== Sys2Proof/Machine/Trap.lean ====
section
/-! DEFINITION. TRAP (43_trap.md R140, R147, R149) and the rows GETC, OUT, PUTS, IN, PUTSP, HALT. -/
namespace Sys2Proof.Machine

/-- TRAP (R140): the routine is chosen by the vector alone; any other vector is fatal (R147). Nothing is
saved (R149). -/
def execTrap (v : BitVec 8) (s : State) : Host.Outcome State Fault Refusal :=
  if v = 0x20 then routineGetc s
  else if v = 0x21 then routineOut s
  else if v = 0x22 then routinePuts s
  else if v = 0x23 then routineIn s
  else if v = 0x24 then routinePutsp s
  else if v = 0x25 then routineHalt s
  else .next (raiseFatal (.unknownTrapVector v) s)

/-- GETC (R141). -/
def execGetc (s : State) : Host.Outcome State Fault Refusal := routineGetc s

/-- OUT (R142). -/
def execOut (s : State) : Host.Outcome State Fault Refusal := routineOut s

/-- PUTS (R143). -/
def execPuts (s : State) : Host.Outcome State Fault Refusal := routinePuts s

/-- IN (R144). -/
def execIn (s : State) : Host.Outcome State Fault Refusal := routineIn s

/-- PUTSP (R145). -/
def execPutsp (s : State) : Host.Outcome State Fault Refusal := routinePutsp s

/-- HALT (R146). -/
def execHalt (s : State) : Host.Outcome State Fault Refusal := routineHalt s

end Sys2Proof.Machine
end

