-- ==== Sys2Proof/Machine/Step.lean ====
section
/-! DEFINITION. One cycle of the engine (30_encoding.md R74, R75), and how a given word is placed to be the
next instruction. -/
namespace Sys2Proof.Machine

/-- One cycle while the engine runs; a halted or fatal engine has no further cycle (R28, R74, R202). -/
def step (s : State) : Host.Outcome State Fault Refusal :=
  match s.status with
  | .running => (fetch s).andThen fun w s' => exec (decode w) s'
  | .halted => .fault .halted
  | .fatal r => .fault (.fatal r)

/-- The state with a given word in the cell PC addresses (log 24). At PC = 0xFE00 and PC = 0xFFFF no word
can be fetched and run as placed (R54, R75). -/
def State.withFetchWord (s : State) (nbits w : Nat) : State :=
  { s with mem := s.mem.write s.pc (BitVec.ofNat 16 (w % 2 ^ nbits)) }

end Sys2Proof.Machine
end

