-- ==== Sys2Proof/Machine/Loader.lean ====
section
/-! DEFINITION. The image contract and the boot order (70_reset_and_hazards.md R241-R243): the loader runs
once, before the first cycle, and the engine never runs from a partially loaded image (R215). -/
namespace Sys2Proof.Machine

/-- The big-endian words of an image; `none` when it ends mid-word (R242). -/
def imageWords : List Byte → Option (List Word)
  | [] => some []
  | [_] => none
  | hi :: lo :: rest => (imageWords rest).map fun ws => wordOfBytes hi lo :: ws

/-- Words placed into consecutive cells (R242). -/
def placeWords : List Word → Word → Memory → Memory
  | [], _, m => m
  | w :: rest, a, m => placeWords rest (a + 1) (m.write a w)

/-- The engine's state for an image: reset, then the image's words from its origin on; PC is not set from
the image (R243). Empty, mid-word and too long images are refused (R215, R242, D11, log 11). -/
def boot (image : List Byte) : Host.Outcome State Fault Refusal :=
  match imageWords image with
  | none => .refused .imageMidWord
  | some [] => .refused .imageEmpty
  | some (origin :: ws) =>
    if origin.toNat + ws.length ≤ 65536 then
      .next { State.reset with mem := placeWords ws origin State.reset.mem }
    else .refused .imagePastTop

end Sys2Proof.Machine
end

