-- ==== Sys2Proof/Safety.lean ====
section
/-! DEFINITION. The terms claims are stated in: what a step keeps, which instructions write what
(10_state.md R22, R26), the loops of PUTS and PUTSP as relations (43_trap.md R143, R145), and the invariant. -/
namespace Sys2Proof.Machine

/-! ### Frames -/

/-- Every general register but the named ones is unchanged. -/
def RegsKept (except : List Reg) (s t : State) : Prop := ∀ r, r ∉ except → t.reg r = s.reg r

/-- Every cell of memory but the named ones reads as before. -/
def CellsKept (except : List Word) (s t : State) : Prop := ∀ a, a ∉ except → t.cell a = s.cell a

/-- COND is the flag of `v` read as a signed number (R25). -/
def FlagOf (v : Word) (c : Cond) : Prop :=
  (v.toInt < 0 → c = .neg) ∧ (v = 0 → c = .zero) ∧ (0 < v.toInt → c = .pos)

/-- `t` is `s` with `v` in `dr` and COND set from it: nothing else changes (R26). -/
def ResultWritten (dr : Reg) (v : Word) (s t : State) : Prop :=
  t.reg dr = v ∧ FlagOf v t.cond ∧ RegsKept [dr] s t ∧ CellsKept [] s t ∧
    t.pc = s.pc ∧ t.status = s.status ∧ t.host = s.host

/-- `t` is `s` with `v` in the cell `a`: nothing else changes (R43). -/
def CellWritten (a v : Word) (s t : State) : Prop :=
  t.cell a = v ∧ CellsKept [a] s t ∧ RegsKept [] s t ∧
    t.cond = s.cond ∧ t.pc = s.pc ∧ t.status = s.status ∧ t.host = s.host

/-- `t` is `s` with the program counter `pc`: nothing else changes. -/
def OnlyPcChanged (pc : Word) (s t : State) : Prop :=
  t.pc = pc ∧ RegsKept [] s t ∧ CellsKept [] s t ∧ t.cond = s.cond ∧ t.status = s.status ∧ t.host = s.host

/-- `t` is `s` with the run status `st`: nothing else changes (R201: "no register, flag or memory cell is
changed by the error itself"). -/
def OnlyStatusChanged (st : Status) (s t : State) : Prop :=
  t.status = st ∧ RegsKept [] s t ∧ CellsKept [] s t ∧ t.cond = s.cond ∧ t.pc = s.pc ∧ t.host = s.host

/-- `t` is `s` with the host's side `h`: nothing else changes. -/
def OnlyHostChanged (h : HostLink) (s t : State) : Prop :=
  t.host = h ∧ RegsKept [] s t ∧ CellsKept [] s t ∧ t.cond = s.cond ∧ t.pc = s.pc ∧ t.status = s.status

/-- `o` is what a load of `dr` from `a` in state `s` answers: the word that `memRead` gives goes into `dr`
and sets COND; after a fatal read "the instruction's later steps … do not happen" (R127). -/
def LoadedFrom (dr : Reg) (a : Word) (s : State) (o : Host.Outcome State Fault Refusal) : Prop :=
  (a ≠ kbsr → ∃ t, o = .next t ∧ ResultWritten dr (s.cell a) s t) ∧
  (∀ v s', memRead a s = .done v s' → ∃ t, o = .next t ∧ ResultWritten dr v s' t) ∧
  (∀ r s', memRead a s = .fatal r s' → ∃ t, o = .next t ∧ OnlyStatusChanged (.fatal r) s' t) ∧
  (∀ f, memRead a s = .stuck f → o = .fault f)

/-! ### What an instruction may write -/

/-- The general register an instruction writes (the table of R22). -/
def destination : Instr → Option Reg
  | .addReg dr _ _ => some dr
  | .addImm dr _ _ => some dr
  | .andReg dr _ _ => some dr
  | .andImm dr _ _ => some dr
  | .not dr _ => some dr
  | .br _ _ _ _ => none
  | .jmp _ => none
  | .jsr _ => some .r7
  | .jsrr _ => some .r7
  | .ld dr _ => some dr
  | .ldi dr _ => some dr
  | .ldr dr _ _ => some dr
  | .lea dr _ => some dr
  | .st _ _ => none
  | .sti _ _ => none
  | .str _ _ _ => none
  | .trap v => if v = 0x20 ∨ v = 0x23 then some .r0 else none
  | .rti => none
  | .res => none
  | .ret => none
  | .nop _ => none
  | .getc => some .r0
  | .out => none
  | .puts => none
  | .in_ => some .r0
  | .putsp => none
  | .halt => none

/-- "The flag-updating instructions are exactly ADD, AND, NOT, LD, LDI, LDR and LEA" (R26). -/
def updatesFlags : Instr → Bool
  | .addReg _ _ _ => true
  | .addImm _ _ _ => true
  | .andReg _ _ _ => true
  | .andImm _ _ _ => true
  | .not _ _ => true
  | .br _ _ _ _ => false
  | .jmp _ => false
  | .jsr _ => false
  | .jsrr _ => false
  | .ld _ _ => true
  | .ldi _ _ => true
  | .ldr _ _ _ => true
  | .lea _ _ => true
  | .st _ _ => false
  | .sti _ _ => false
  | .str _ _ _ => false
  | .trap _ => false
  | .rti => false
  | .res => false
  | .ret => false
  | .nop _ => false
  | .getc => false
  | .out => false
  | .puts => false
  | .in_ => false
  | .putsp => false
  | .halt => false

/-- "BR (taken), JMP, JSR and JSRR write PC" (R23). -/
def transfersControl : Instr → Bool
  | .addReg _ _ _ => false
  | .addImm _ _ _ => false
  | .andReg _ _ _ => false
  | .andImm _ _ _ => false
  | .not _ _ => false
  | .br _ _ _ _ => true
  | .jmp _ => true
  | .jsr _ => true
  | .jsrr _ => true
  | .ld _ _ => false
  | .ldi _ _ => false
  | .ldr _ _ _ => false
  | .lea _ _ => false
  | .st _ _ => false
  | .sti _ _ => false
  | .str _ _ _ => false
  | .trap _ => false
  | .rti => false
  | .res => false
  | .ret => true
  | .nop _ => false
  | .getc => false
  | .out => false
  | .puts => false
  | .in_ => false
  | .putsp => false
  | .halt => false

/-- The words of TRAP: "every trap routine" and every other vector (R149). -/
def isTrapWord : Instr → Bool
  | .addReg _ _ _ => false
  | .addImm _ _ _ => false
  | .andReg _ _ _ => false
  | .andImm _ _ _ => false
  | .not _ _ => false
  | .br _ _ _ _ => false
  | .jmp _ => false
  | .jsr _ => false
  | .jsrr _ => false
  | .ld _ _ => false
  | .ldi _ _ => false
  | .ldr _ _ _ => false
  | .lea _ _ => false
  | .st _ _ => false
  | .sti _ _ => false
  | .str _ _ _ => false
  | .trap _ => true
  | .rti => false
  | .res => false
  | .ret => false
  | .nop _ => false
  | .getc => true
  | .out => true
  | .puts => true
  | .in_ => true
  | .putsp => true
  | .halt => true

/-- What memory accesses an instruction makes besides its fetch (the table of R44). -/
inductive AccessShape where
  /-- No access. -/
  | untouched
  /-- Reads alone. -/
  | reading
  /-- A write. -/
  | storing
  deriving DecidableEq, Repr

/-- The rows of R44. -/
def accessShape : Instr → AccessShape
  | .addReg _ _ _ => .untouched
  | .addImm _ _ _ => .untouched
  | .andReg _ _ _ => .untouched
  | .andImm _ _ _ => .untouched
  | .not _ _ => .untouched
  | .br _ _ _ _ => .untouched
  | .jmp _ => .untouched
  | .jsr _ => .untouched
  | .jsrr _ => .untouched
  | .ld _ _ => .reading
  | .ldi _ _ => .reading
  | .ldr _ _ _ => .reading
  | .lea _ _ => .untouched
  | .st _ _ => .storing
  | .sti _ _ => .storing
  | .str _ _ _ => .storing
  | .trap v => if v = 0x22 ∨ v = 0x24 then .reading else .untouched
  | .rti => .untouched
  | .res => .untouched
  | .ret => .untouched
  | .nop _ => .untouched
  | .getc => .untouched
  | .out => .untouched
  | .puts => .reading
  | .in_ => .untouched
  | .putsp => .reading
  | .halt => .untouched

/-- The instructions whose own effect asks the host for something that can fail: a memory read, which may poll
(R127), or a routine that reads or writes a byte (R141-R145). -/
def mayFailIo : Instr → Bool
  | .addReg _ _ _ => false
  | .addImm _ _ _ => false
  | .andReg _ _ _ => false
  | .andImm _ _ _ => false
  | .not _ _ => false
  | .br _ _ _ _ => false
  | .jmp _ => false
  | .jsr _ => false
  | .jsrr _ => false
  | .ld _ _ => true
  | .ldi _ _ => true
  | .ldr _ _ _ => true
  | .lea _ _ => false
  | .st _ _ => false
  | .sti _ _ => true
  | .str _ _ _ => false
  | .trap v => decide (0x20#8 ≤ v) && decide (v ≤ 0x24#8)
  | .rti => false
  | .res => false
  | .ret => false
  | .nop _ => false
  | .getc => true
  | .out => true
  | .puts => true
  | .in_ => true
  | .putsp => true
  | .halt => false

/-! ### The string loops, as the pseudocode runs them -/

/-- The loop of R143 from cell `a` in state `s` ends in `t`, after `n` emitted cells. -/
inductive PutsRun : Nat → Word → State → State → Prop where
  /-- `if c = 0x0000 then exit loop`. -/
  | terminator {a : Word} {s s' : State} : memRead a s = .done 0x0000 s' → PutsRun 0 a s s'
  /-- The read is fatal. -/
  | readFails {a : Word} {s s' : State} {r : FatalReason} :
      memRead a s = .fatal r s' → PutsRun 0 a s (raiseFatal r s')
  /-- The write fails. -/
  | writeFails {a c : Word} {s s' s'' : State} :
      memRead a s = .done c s' → c ≠ 0x0000 → putByte (lowByte c) s' = (.fail, s'') →
      PutsRun 0 a s (raiseFatal .ioError s'')
  /-- The byte is written and `a <- a + 1`. -/
  | emit {n : Nat} {a c : Word} {s s' s'' t : State} :
      memRead a s = .done c s' → c ≠ 0x0000 → putByte (lowByte c) s' = (.ok, s'') →
      PutsRun n (a + 1) s'' t → PutsRun (n + 1) a s t

/-- The loop of R145 from cell `a` in state `s` ends in `t`, after `n` emitted cells. -/
inductive PutspRun : Nat → Word → State → State → Prop where
  /-- `if c[7:0] = 0x00 then exit loop`. -/
  | terminator {a c : Word} {s s' : State} :
      memRead a s = .done c s' → lowByte c = 0x00 → PutspRun 0 a s s'
  /-- The read is fatal. -/
  | readFails {a : Word} {s s' : State} {r : FatalReason} :
      memRead a s = .fatal r s' → PutspRun 0 a s (raiseFatal r s')
  /-- The low byte's write fails. -/
  | lowFails {a c : Word} {s s' s'' : State} :
      memRead a s = .done c s' → lowByte c ≠ 0x00 → putByte (lowByte c) s' = (.fail, s'') →
      PutspRun 0 a s (raiseFatal .ioError s'')
  /-- The high byte's write fails. -/
  | highFails {a c : Word} {s s' s'' s''' : State} :
      memRead a s = .done c s' → lowByte c ≠ 0x00 → putByte (lowByte c) s' = (.ok, s'') →
      highByte c ≠ 0x00 → putByte (highByte c) s'' = (.fail, s''') →
      PutspRun 0 a s (raiseFatal .ioError s''')
  /-- One byte is written and `a <- a + 1`. -/
  | emitLow {n : Nat} {a c : Word} {s s' s'' t : State} :
      memRead a s = .done c s' → lowByte c ≠ 0x00 → putByte (lowByte c) s' = (.ok, s'') →
      highByte c = 0x00 → PutspRun n (a + 1) s'' t → PutspRun (n + 1) a s t
  /-- Two bytes are written and `a <- a + 1`. -/
  | emitBoth {n : Nat} {a c : Word} {s s' s'' s''' t : State} :
      memRead a s = .done c s' → lowByte c ≠ 0x00 → putByte (lowByte c) s' = (.ok, s'') →
      highByte c ≠ 0x00 → putByte (highByte c) s'' = (.ok, s''') →
      PutspRun n (a + 1) s''' t → PutspRun (n + 1) a s t

/-- The host accepts the next `n` byte writes, if nothing else is asked of it in between. -/
def HostLink.acceptsNext : Nat → HostLink → Bool
  | 0, _ => true
  | n + 1, h => decide (h.drawWrite.1 = .ok) && HostLink.acceptsNext n h.drawWrite.2

/-- What PUTSP emits of a cell (R145): "emit low byte then high byte if non-zero". -/
def emittedPair (c : Word) : List Byte :=
  if c.extractLsb' 8 8 = 0x00 then [c.setWidth 8] else [c.setWidth 8, c.extractLsb' 8 8]

/-- The two bytes of a word, the high byte first (R46 (c), R242). -/
def bigEndian (w : Word) : List Byte := [w.extractLsb' 8 8, w.extractLsb' 0 8]

/-- The cells `a`, `a + 1`, … , `n` of them, addresses modulo 2^16 (D21). -/
def cellsFrom (s : State) (a : Word) : Nat → List Word
  | 0 => []
  | n + 1 => s.cell a :: cellsFrom s (a + 1) n

/-! ### The invariant -/

/-- A fatal status records what R200 says its reason can record, and PC is where R201 says. -/
def Status.sound (pc : Word) : Status → Bool
  | .running => true
  | .halted => true
  | .fatal (.unsupportedOpcode op) => decide (op = 0x8) || decide (op = 0xD)
  | .fatal (.unknownTrapVector v) => !isRoutineVector v
  | .fatal .pcOutOfRange => decide (pc = topAddress)
  | .fatal .ioError => true

/-- Memory keeps its canonical form, and a fatal status is one the spec gives. -/
def State.inv (s : State) : Bool := s.mem.wf && s.status.sound s.pc

/-- Every state a run can reach from `s`. -/
inductive Reaches (s : State) : State → Prop where
  | refl : Reaches s s
  | tail {t u : State} : Reaches s t → step t = .next u → Reaches s u

end Sys2Proof.Machine
end

