-- ==== Sys2Proof/Certificates/Slice0/Obligations.lean ====
section
/-! DEFINITION. The statements for the provers. A docstring names the rule a statement formalises, or says
that a clause is a decision of the spec (D<n>) or the model's own choice, with its log entry. -/
open Sys2Proof Sys2Proof.Machine

/-! ### Encoding (30_encoding.md, opcode_table.json) -/

/-- Words written out from the formats of R63 and the vectors of 95_test_vectors.md. The opcode values and
bit orders are the spec's decisions D1-D4 (log 1-4); the rows of R73 are log 23. -/
def Obligations.WrittenOutWordsDecode : Prop :=
  decode 0x1042 = .addReg .r0 .r1 .r2 ∧ decode 0x107F = .addImm .r0 .r1 0x1F ∧
  decode 0x5042 = .andReg .r0 .r1 .r2 ∧ decode 0x547F = .andImm .r2 .r1 0x1F ∧
  decode 0x92BF = .not .r1 .r2 ∧ decode 0x0B00 = .br true false true 0x100 ∧
  decode 0x0005 = .nop 0x005 ∧ decode 0xC0C0 = .jmp .r3 ∧ decode 0xC1C0 = .ret ∧
  decode 0x4C00 = .jsr 0x400 ∧ decode 0x47C0 = .jsrr .r7 ∧ decode 0x2002 = .ld .r0 0x002 ∧
  decode 0xA600 = .ldi .r3 0x000 ∧ decode 0x62BF = .ldr .r1 .r2 0x3F ∧ decode 0xE406 = .lea .r2 0x006 ∧
  decode 0x3001 = .st .r0 0x001 ∧ decode 0xB801 = .sti .r4 0x001 ∧ decode 0x729F = .str .r1 .r2 0x1F ∧
  decode 0xF026 = .trap 0x26 ∧ decode 0x8FFF = .rti ∧ decode 0xD000 = .res ∧ decode 0xF020 = .getc ∧
  decode 0xF021 = .out ∧ decode 0xF022 = .puts ∧ decode 0xF023 = .in_ ∧ decode 0xF024 = .putsp ∧
  decode 0xFF25 = .halt

/-- Every row of opcode_table.json by its match and mask, with its fields at the bits of R63. Rests on the
decisions D1-D4 (log 1-4); the rows of R73 take their words out of BR, JMP and TRAP (log 23). -/
def Obligations.TableRowsDecodeByMatchAndMask : Prop :=
  (∀ f : BitVec 3, (Reg.ofField f).field = f) ∧
  ∀ w : Word,
    let dr := Reg.ofField (w.extractLsb' 9 3)
    let sr := Reg.ofField (w.extractLsb' 6 3)
    (w &&& 0xF020 = 0x1000 → decode w = .addReg dr sr (Reg.ofField (w.extractLsb' 0 3))) ∧
    (w &&& 0xF020 = 0x1020 → decode w = .addImm dr sr (w.extractLsb' 0 5)) ∧
    (w &&& 0xF020 = 0x5000 → decode w = .andReg dr sr (Reg.ofField (w.extractLsb' 0 3))) ∧
    (w &&& 0xF020 = 0x5020 → decode w = .andImm dr sr (w.extractLsb' 0 5)) ∧
    (w &&& 0xF000 = 0x9000 → decode w = .not dr sr) ∧
    (w &&& 0xF000 = 0x0000 → w &&& 0x0E00 ≠ 0 →
      decode w = .br (w.getLsbD 11) (w.getLsbD 10) (w.getLsbD 9) (w.extractLsb' 0 9)) ∧
    (w &&& 0xF000 = 0xC000 → w &&& 0x01C0 ≠ 0x01C0 → decode w = .jmp sr) ∧
    (w &&& 0xF800 = 0x4800 → decode w = .jsr (w.extractLsb' 0 11)) ∧
    (w &&& 0xF800 = 0x4000 → decode w = .jsrr sr) ∧
    (w &&& 0xF000 = 0x2000 → decode w = .ld dr (w.extractLsb' 0 9)) ∧
    (w &&& 0xF000 = 0xA000 → decode w = .ldi dr (w.extractLsb' 0 9)) ∧
    (w &&& 0xF000 = 0x6000 → decode w = .ldr dr sr (w.extractLsb' 0 6)) ∧
    (w &&& 0xF000 = 0xE000 → decode w = .lea dr (w.extractLsb' 0 9)) ∧
    (w &&& 0xF000 = 0x3000 → decode w = .st dr (w.extractLsb' 0 9)) ∧
    (w &&& 0xF000 = 0xB000 → decode w = .sti dr (w.extractLsb' 0 9)) ∧
    (w &&& 0xF000 = 0x7000 → decode w = .str dr sr (w.extractLsb' 0 6)) ∧
    (w &&& 0xF000 = 0xF000 → (w &&& 0x00FF).toNat < 0x20 ∨ 0x25 < (w &&& 0x00FF).toNat →
      decode w = .trap (w.extractLsb' 0 8)) ∧
    (w &&& 0xF000 = 0x8000 → decode w = .rti) ∧
    (w &&& 0xF000 = 0xD000 → decode w = .res) ∧
    (w &&& 0xF1C0 = 0xC1C0 → decode w = .ret) ∧
    (w &&& 0xFE00 = 0x0000 → decode w = .nop (w.extractLsb' 0 9)) ∧
    (w &&& 0xF0FF = 0xF020 → decode w = .getc) ∧
    (w &&& 0xF0FF = 0xF021 → decode w = .out) ∧
    (w &&& 0xF0FF = 0xF022 → decode w = .puts) ∧
    (w &&& 0xF0FF = 0xF023 → decode w = .in_) ∧
    (w &&& 0xF0FF = 0xF024 → decode w = .putsp) ∧
    (w &&& 0xF0FF = 0xF025 → decode w = .halt)

/-- No operand of any well-formed instruction is lost in its word (R63, R68). The words rest on D1-D3
(log 1-3), the unread bits on log 29. -/
def Obligations.DecodeInvertsEncode : Prop :=
  ∀ i : Instr, i.wellFormed = true → decode (encode i) = i

/-- The other direction: the word of a word's instruction agrees with it on every bit its format reads
(R63, R69; D4, log 4). -/
def Obligations.EncodeInvertsDecodeOnReadBits : Prop :=
  ∀ w : Word, encode (decode w) &&& ~~~(unreadBits (decode w)) = w &&& ~~~(unreadBits (decode w))

/-- Bits a format marks `x` are not read: changing any of them changes nothing (R69, a decision: D4, log 4). -/
def Obligations.UnreadBitsAreIgnored : Prop :=
  ∀ w x : Word, decode (w ^^^ (x &&& unreadBits (decode w))) = decode w

/-- Decoding is total (R61), and answers well-formed instructions alone (log 23). -/
def Obligations.DecodedInstructionsAreWellFormed : Prop :=
  ∀ w : Word, (decode w).wellFormed = true

/-- R67 for every width of R68: the source's formula, which keeps the signed value. -/
def Obligations.SignExtensionKeepsSignedValue : Prop :=
  ∀ (n : Nat) (x : BitVec n), 0 < n → n ≤ 16 →
    (x.getLsbD (n - 1) = true → sext x = x.setWidth 16 ||| (0xFFFF#16 <<< n)) ∧
    (x.getLsbD (n - 1) = false → sext x = x.setWidth 16) ∧
    (sext x).toInt = x.toInt

/-! ### Condition flags (10_state.md) -/

/-- R25: ZERO for 0, else NEG when bit 15 is 1, else POS; the signed reading of the value; and nothing but
COND is written. -/
def Obligations.SetccGivesTheFlagOfTheSignedValue : Prop :=
  ∀ (v : Word) (s : State),
    (v = 0x0000 → (setcc v s).cond = .zero) ∧
    (v ≠ 0x0000 → v.getLsbD 15 = true → (setcc v s).cond = .neg) ∧
    (v ≠ 0x0000 → v.getLsbD 15 = false → (setcc v s).cond = .pos) ∧
    FlagOf v (setcc v s).cond ∧ RegsKept [] s (setcc v s) ∧ CellsKept [] s (setcc v s) ∧
    (setcc v s).pc = s.pc ∧ (setcc v s).status = s.status ∧ (setcc v s).host = s.host

/-- R26: exactly the instructions of its list touch COND, and after one of them that did not end in a fatal
error COND is the flag of the written register. -/
def Obligations.OnlyListedInstructionsUpdateFlags : Prop :=
  ∀ (i : Instr) (s t : State), exec i s = .next t →
    (updatesFlags i = false → t.cond = s.cond) ∧
    (updatesFlags i = true → t.status = .running → ∃ d, destination i = some d ∧ FlagOf (t.reg d) t.cond)

/-- R24, C1: COND = 0b000 "is never produced afterwards" (log 28). -/
def Obligations.NoFlagIsNeverProducedAgain : Prop :=
  ∀ s t : State, step s = .next t → s.cond ≠ .none → t.cond ≠ .none

/-- The bits of NZP and COND meet flag by flag: the order is the decision D3 (log 3). -/
def Obligations.BranchMaskSelectsNamedFlags : Prop :=
  ∀ (n z p : Bool) (c : Cond),
    (nzpBits n z p).toNat = n.toNat * 4 + z.toNat * 2 + p.toNat ∧
    (nzpBits n z p &&& c.bits ≠ 0 ↔
      (n = true ∧ c = .neg) ∨ (z = true ∧ c = .zero) ∨ (p = true ∧ c = .pos))

/-! ### Operate instructions (40_operate.md) and LEA -/

/-- R100, R101: DR = SR1 + SR2 or SR1 + sext(imm5) modulo 2^16, flags from DR, nothing else, never an
exception. -/
def Obligations.AddWritesTheSum : Prop :=
  ∀ (dr sr1 sr2 : Reg) (imm5 : BitVec 5) (s : State),
    (∃ t, exec (.addReg dr sr1 sr2) s = .next t ∧ ResultWritten dr (s.reg sr1 + s.reg sr2) s t) ∧
    (∃ t, exec (.addImm dr sr1 imm5) s = .next t ∧ ResultWritten dr (s.reg sr1 + sext imm5) s t)

/-- R102, R103: DR = SR1 & SR2 or SR1 & sext(imm5), flags from DR, nothing else, never an exception. -/
def Obligations.AndWritesTheConjunction : Prop :=
  ∀ (dr sr1 sr2 : Reg) (imm5 : BitVec 5) (s : State),
    (∃ t, exec (.andReg dr sr1 sr2) s = .next t ∧ ResultWritten dr (s.reg sr1 &&& s.reg sr2) s t) ∧
    (∃ t, exec (.andImm dr sr1 imm5) s = .next t ∧ ResultWritten dr (s.reg sr1 &&& sext imm5) s t)

/-- R104: DR = the bitwise complement of SR, flags from DR, nothing else, never an exception. -/
def Obligations.NotWritesTheComplement : Prop :=
  ∀ (dr sr : Reg) (s : State),
    ∃ t, exec (.not dr sr) s = .next t ∧ ResultWritten dr (~~~(s.reg sr)) s t

/-- R123: DR = PC + sext(off9), flags from DR; no memory access, so no poll at 0xFE00 either. The wrap of
the address modulo 2^16 is the decision D6 (log 6). -/
def Obligations.LeaWritesTheAddress : Prop :=
  ∀ (dr : Reg) (off9 : BitVec 9) (s : State),
    ∃ t, exec (.lea dr off9) s = .next t ∧ ResultWritten dr (s.pc + sext off9) s t

/-! ### Control transfer (41_control.md) -/

/-- R110: PC += sext(off9) iff (NZP & COND) ≠ 0; nothing else changes; NZP = 000 never branches. The bit order
of NZP and COND is the decision D3 (log 3), the wrap of the target D6 (log 6). -/
def Obligations.BranchAddsTheOffsetWhenItsFlagIsSet : Prop :=
  ∀ (n z p : Bool) (off9 : BitVec 9) (s : State),
    (∃ t, exec (.br n z p off9) s = .next t ∧
      OnlyPcChanged (if nzpBits n z p &&& s.cond.bits ≠ 0 then s.pc + sext off9 else s.pc) s t) ∧
    (∃ t, exec (.nop off9) s = .next t ∧ OnlyPcChanged s.pc s t)

/-- R111: PC = BaseR's value, R7's for RET; nothing else changes. -/
def Obligations.JumpGoesToTheBase : Prop :=
  ∀ (base : Reg) (s : State),
    (∃ t, exec (.jmp base) s = .next t ∧ OnlyPcChanged (s.reg base) s t) ∧
    (∃ t, exec .ret s = .next t ∧ OnlyPcChanged (s.reg .r7) s t)

/-- R112: R7 = the post-increment PC, PC += sext(off11); nothing else changes. The wrap of the target modulo 2^16
is the decision D6 (log 6). -/
def Obligations.JsrLinksAndJumps : Prop :=
  ∀ (off11 : BitVec 11) (s : State),
    ∃ t, exec (.jsr off11) s = .next t ∧ t.reg .r7 = s.pc ∧ t.pc = s.pc + sext off11 ∧
      RegsKept [.r7] s t ∧ CellsKept [] s t ∧ t.cond = s.cond ∧ t.status = s.status ∧ t.host = s.host

/-- R113: R7 = PC, then PC = BaseR. That JSRR R7 continues at the next instruction is the decision D12
(log 12). -/
def Obligations.JsrrReadsTheBaseAfterTheLink : Prop :=
  ∀ (base : Reg) (s : State),
    ∃ t, exec (.jsrr base) s = .next t ∧ t.reg .r7 = s.pc ∧
      t.pc = (if base = .r7 then s.pc else s.reg base) ∧
      RegsKept [.r7] s t ∧ CellsKept [] s t ∧ t.cond = s.cond ∧ t.status = s.status ∧ t.host = s.host

/-- R111, R112: "JSR sets R7 to the address following the JSR instruction; a later JMP with BaseR=R7
restores PC to that address": any later RET that still finds R7. -/
def Obligations.ReturnGoesBehindTheCall : Prop :=
  ∀ (off11 : BitVec 11) (s t u : State), exec (.jsr off11) s = .next t → u.reg .r7 = t.reg .r7 →
    ∃ v, exec .ret u = .next v ∧ v.pc = s.pc

/-! ### Memory, loads and stores (20_memory.md, 42_load_store.md) -/

/-- R41, R42: a read has no effect but at 0xFE00, where it polls first. The consumption of the byte, its zero
extension and the fatal failure are the decisions D8 and D9 (log 8, 9); that every read polls is D7 (log 7); a
host that never answers is D24 (log 18). -/
def Obligations.ReadsPollAtTheStatusCellAlone : Prop :=
  ∀ s : State,
    (∀ a, a ≠ 0xFE00 → memRead a s = .done (s.cell a) s) ∧
    (∀ b h, hostPoll s.host = some (.present b, h) → ∃ t, memRead 0xFE00 s = .done 0x8000 t ∧
      t.cell 0xFE00 = 0x8000 ∧ t.cell 0xFE02 = b.setWidth 16 ∧ CellsKept [0xFE00, 0xFE02] s t ∧
      RegsKept [] s t ∧ t.cond = s.cond ∧ t.pc = s.pc ∧ t.status = s.status ∧ t.host = h) ∧
    (∀ h, hostPoll s.host = some (.absent, h) → ∃ t, memRead 0xFE00 s = .done 0x0000 t ∧
      t.cell 0xFE00 = 0x0000 ∧ CellsKept [0xFE00] s t ∧
      RegsKept [] s t ∧ t.cond = s.cond ∧ t.pc = s.pc ∧ t.status = s.status ∧ t.host = h) ∧
    (∀ h, hostPoll s.host = some (.fail, h) → ∃ t, memRead 0xFE00 s = .fatal .ioError t ∧
      OnlyHostChanged h s t) ∧
    (hostPoll s.host = none → memRead 0xFE00 s = .stuck .hostSilent)

/-- R43 (marked derived in the spec): a write sets one cell, whichever, with no side effect. -/
def Obligations.WriteSetsOneCell : Prop :=
  ∀ (a v : Word) (s : State), CellWritten a v s (memWrite a v s)

/-- R120, R122: DR = the word read at PC + sext(off9), at BaseR + sext(off6); flags from it. That the read polls
at 0xFE00, and how a poll fails, are the decisions D7 and D9 (log 7, 9); the wrap of the address is D6 (log 6), a
host that never answers D24 (log 18). -/
def Obligations.LoadsWriteTheWordRead : Prop :=
  ∀ (dr base : Reg) (off9 : BitVec 9) (off6 : BitVec 6) (s : State),
    LoadedFrom dr (s.pc + sext off9) s (exec (.ld dr off9) s) ∧
    LoadedFrom dr (s.reg base + sext off6) s (exec (.ldr dr base off6) s)

/-- R121: the pointer cell is read first, then the word it points to goes into DR; flags from it. That either
read polls at 0xFE00, and how a poll fails, are the decisions D7 and D9 (log 7, 9); the wrap of the address is D6
(log 6), a host that never answers D24 (log 18). -/
def Obligations.LdiLoadsThroughThePointer : Prop :=
  ∀ (dr : Reg) (off9 : BitVec 9) (s : State),
    (s.pc + sext off9 ≠ kbsr → LoadedFrom dr (s.cell (s.pc + sext off9)) s (exec (.ldi dr off9) s)) ∧
    (∀ p s', memRead (s.pc + sext off9) s = .done p s' → LoadedFrom dr p s' (exec (.ldi dr off9) s)) ∧
    (∀ r s', memRead (s.pc + sext off9) s = .fatal r s' →
      ∃ t, exec (.ldi dr off9) s = .next t ∧ OnlyStatusChanged (.fatal r) s' t) ∧
    (∀ f, memRead (s.pc + sext off9) s = .stuck f → exec (.ldi dr off9) s = .fault f)

/-- R124, R126: memory[PC + sext(off9)] = SR, memory[BaseR + sext(off6)] = SR; nothing else changes, at every
address and with no exception. That the address wraps modulo 2^16 and never faults is the decision D6 (log 6). -/
def Obligations.StoresWriteTheSourceRegister : Prop :=
  ∀ (sr base : Reg) (off9 : BitVec 9) (off6 : BitVec 6) (s : State),
    (∃ t, exec (.st sr off9) s = .next t ∧ CellWritten (pcRelative off9 s) (s.reg sr) s t) ∧
    (∃ t, exec (.str sr base off6) s = .next t ∧ CellWritten (baseOffset base off6 s) (s.reg sr) s t) ∧
    pcRelative off9 s = s.pc + sext off9 ∧ baseOffset base off6 s = s.reg base + sext off6

/-- R125: memory[memory[PC + sext(off9)]] = SR. That the pointer read polls at 0xFE00 is the decision D7
(log 7), the wrap of the pointer cell's address D6 (log 6), a host that never answers D24 (log 18); "if it raises,
no store happens". -/
def Obligations.StiStoresThroughThePointer : Prop :=
  ∀ (sr : Reg) (off9 : BitVec 9) (s : State),
    (pcRelative off9 s ≠ kbsr →
      ∃ t, exec (.sti sr off9) s = .next t ∧ CellWritten (s.cell (pcRelative off9 s)) (s.reg sr) s t) ∧
    (∀ p s', memRead (pcRelative off9 s) s = .done p s' →
      ∃ t, exec (.sti sr off9) s = .next t ∧ CellWritten p (s.reg sr) s' t) ∧
    (∀ r s', memRead (pcRelative off9 s) s = .fatal r s' →
      ∃ t, exec (.sti sr off9) s = .next t ∧ OnlyStatusChanged (.fatal r) s' t) ∧
    (∀ f, memRead (pcRelative off9 s) s = .stuck f → exec (.sti sr off9) s = .fault f)

/-- R120, R124 (95_test_vectors.md S5): a word stored at an offset is loaded back from the same offset and PC.
The wrap of the address is the decision D6 (log 6). -/
def Obligations.StoreThenLoadReturnsTheWord : Prop :=
  ∀ (sr dr : Reg) (off9 : BitVec 9) (s t : State), exec (.st sr off9) s = .next t →
    s.pc + sext off9 ≠ 0xFE00 →
    ∃ u, exec (.ld dr off9) t = .next u ∧ u.reg dr = s.reg sr ∧ FlagOf (s.reg sr) u.cond

/-- Reading the keyboard through LD, LDR and LDI (95_test_vectors.md M3-M5, M8, M9): 0x8000 and NEG when a
byte is there, 0x0000 and ZERO when not, IoError with the register and COND unchanged when the poll fails.
Rests on D6 to D9 (log 6-9), a host that never answers on D24 (log 18). -/
def Obligations.KeyboardLoadsReportThePoll : Prop :=
  ∀ (i : Instr) (dr : Reg) (s : State),
    ((∃ off9, i = .ld dr off9 ∧ s.pc + sext off9 = 0xFE00) ∨
      (∃ base off6, i = .ldr dr base off6 ∧ s.reg base + sext off6 = 0xFE00) ∨
      (∃ off9, i = .ldi dr off9 ∧ s.pc + sext off9 ≠ 0xFE00 ∧ s.cell (s.pc + sext off9) = 0xFE00)) →
    (∀ b h, hostPoll s.host = some (.present b, h) → ∃ t, exec i s = .next t ∧ t.reg dr = 0x8000 ∧
      t.cond = .neg ∧ t.cell 0xFE00 = 0x8000 ∧ t.cell 0xFE02 = b.setWidth 16 ∧ CellsKept [0xFE00, 0xFE02] s t ∧
      RegsKept [dr] s t ∧ t.pc = s.pc ∧ t.status = s.status ∧ t.host = h) ∧
    (∀ h, hostPoll s.host = some (.absent, h) → ∃ t, exec i s = .next t ∧ t.reg dr = 0x0000 ∧
      t.cond = .zero ∧ t.cell 0xFE00 = 0x0000 ∧ CellsKept [0xFE00] s t ∧
      RegsKept [dr] s t ∧ t.pc = s.pc ∧ t.status = s.status ∧ t.host = h) ∧
    (∀ h, hostPoll s.host = some (.fail, h) → ∃ t, exec i s = .next t ∧
      OnlyStatusChanged (.fatal .ioError) (s.setHost h) t) ∧
    (hostPoll s.host = none → exec i s = .fault .hostSilent)

/-- R54 (marked derived in the spec): a store to the next instruction's cell is what the next cycle runs. The
wrap of the store's address is the decision D6 (log 6). -/
def Obligations.StoredInstructionIsFetchedNext : Prop :=
  ∀ (i : Instr) (sr : Reg) (s t : State),
    ((∃ off9, i = .st sr off9 ∧ pcRelative off9 s = s.pc) ∨
      (∃ base off6, i = .str sr base off6 ∧ baseOffset base off6 s = s.pc)) →
    s.status = .running → s.pc ≠ 0xFE00 → s.pc ≠ 0xFFFF → exec i s = .next t →
    step t = exec (decode (s.reg sr)) { t with pc := t.pc + 1 }

/-! ### TRAP and its routines (43_trap.md) -/

/-- R140, R147: the vector alone selects the routine; any other vector is fatal and changes nothing else. The
terms `trap 0x20` to `trap 0x25` are ill-formed, and that they still run as the routines' rows is the model's
choice (log 23). -/
def Obligations.TrapSelectsTheRoutineOfItsVector : Prop :=
  ∀ (v : BitVec 8) (s : State),
    (v = 0x20 → exec (.trap v) s = exec .getc s) ∧
    (v = 0x21 → exec (.trap v) s = exec .out s) ∧
    (v = 0x22 → exec (.trap v) s = exec .puts s) ∧
    (v = 0x23 → exec (.trap v) s = exec .in_ s) ∧
    (v = 0x24 → exec (.trap v) s = exec .putsp s) ∧
    (v = 0x25 → exec (.trap v) s = exec .halt s) ∧
    (v.toNat < 0x20 ∨ 0x25 < v.toNat →
      ∃ t, exec (.trap v) s = .next t ∧ OnlyStatusChanged (.fatal (.unknownTrapVector v)) s t)

/-- R73: RET and NOP are words of JMP and BR, so they do what those do (log 23). -/
def Obligations.SecondSpellingsRunTheSame : Prop :=
  ∀ (off9 : BitVec 9) (s : State),
    exec .ret s = exec (.jmp .r7) s ∧ exec (.nop off9) s = exec (.br false false false off9) s

/-- R149: TRAP saves nothing, so R7 and PC stay, and COND stays, whatever the vector and the routine. -/
def Obligations.TrapSavesNothingAndKeepsFlags : Prop :=
  ∀ (i : Instr) (s t : State), isTrapWord i = true → exec i s = .next t →
    t.reg .r7 = s.reg .r7 ∧ t.pc = s.pc ∧ t.cond = s.cond

/-- R141: R0 = the byte, zero-extended; no output, no cell changed (D16, log 16); IoError when the read
fails; no step when the host never answers (D24, log 18). -/
def Obligations.GetcReadsOneByte : Prop :=
  ∀ s : State,
    (∀ b h, hostGetByte s.host = some (.byte b, h) → ∃ t, exec .getc s = .next t ∧
      t.reg .r0 = b.setWidth 16 ∧ RegsKept [.r0] s t ∧ CellsKept [] s t ∧ t.cond = s.cond ∧ t.pc = s.pc ∧
      t.status = s.status ∧ t.host = h ∧ t.host.output = s.host.output) ∧
    (∀ h, hostGetByte s.host = some (.fail, h) → ∃ t, exec .getc s = .next t ∧
      OnlyStatusChanged (.fatal .ioError) (s.setHost h) t) ∧
    (hostGetByte s.host = none → exec .getc s = .fault .hostSilent)

/-- R142: the low 8 bits of R0 go out; a failed write is IoError (D20, log 19). OUT always has a next
state (log 26). -/
def Obligations.OutEmitsTheLowByteOfR0 : Prop :=
  ∀ s : State,
    let w := hostPutByte ((s.reg .r0).setWidth 8) s.host
    (w.1 = .ok → ∃ t, exec .out s = .next t ∧ OnlyHostChanged w.2 s t ∧
      t.host.output = s.host.output ++ [(s.reg .r0).setWidth 8] ∧ t.host.input = s.host.input) ∧
    (w.1 = .fail → ∃ t, exec .out s = .next t ∧
      OnlyStatusChanged (.fatal .ioError) (s.setHost w.2) t ∧ t.host.output = s.host.output)

/-- R144: the prompt, one byte, R0, the echo. The order of R0 and echo is the decision D17 (log 17), the
prompt is open (D13, log 13); that no cell changes, 0xFE00 and 0xFE02 among them, is D16 (log 16), a failed
write D20 (log 19), a read the host never answers D24 (log 18). -/
def Obligations.InPromptsReadsAndEchoes : Prop :=
  ∀ s : State,
    (∀ s' b h, putBytes Config.inPrompt s = (.ok, s') → hostGetByte s'.host = some (.byte b, h) →
      ((hostPutByte b h).1 = .ok → ∃ t, exec .in_ s = .next t ∧ t.reg .r0 = b.setWidth 16 ∧
        RegsKept [.r0] s t ∧ CellsKept [] s t ∧ t.cond = s.cond ∧ t.pc = s.pc ∧ t.status = s.status ∧
        t.host = (hostPutByte b h).2 ∧ t.host.output = s.host.output ++ Config.inPrompt ++ [b]) ∧
      ((hostPutByte b h).1 = .fail → ∃ t, exec .in_ s = .next t ∧ t.reg .r0 = b.setWidth 16 ∧
        RegsKept [.r0] s t ∧ CellsKept [] s t ∧ t.cond = s.cond ∧ t.pc = s.pc ∧
        t.status = .fatal .ioError ∧ t.host.output = s.host.output ++ Config.inPrompt)) ∧
    (∀ s' h, putBytes Config.inPrompt s = (.ok, s') → hostGetByte s'.host = some (.fail, h) →
      ∃ t, exec .in_ s = .next t ∧ OnlyStatusChanged (.fatal .ioError) (s'.setHost h) t ∧
        RegsKept [] s t ∧ CellsKept [] s t ∧ t.cond = s.cond ∧ t.pc = s.pc ∧
        t.host.output = s.host.output ++ Config.inPrompt) ∧
    (∀ s', putBytes Config.inPrompt s = (.ok, s') → hostGetByte s'.host = none →
      exec .in_ s = .fault .hostSilent) ∧
    (∀ s', putBytes Config.inPrompt s = (.fail, s') →
      ∃ t, exec .in_ s = .next t ∧ OnlyStatusChanged (.fatal .ioError) s' t ∧ RegsKept [] s t ∧
        CellsKept [] s t ∧ t.cond = s.cond ∧ t.pc = s.pc ∧
        s.host.output <+: t.host.output ∧ t.host.output <+: s.host.output ++ Config.inPrompt)

/-- R143: PUTS runs its loop, and any end of the loop within the cells the model walks is PUTS' own. The bound
is the model's and the wrap of the pointer D21 (log 20); the poll at 0xFE00 is D7 (log 7), a failed write D20
(log 19). -/
def Obligations.PutsRunsItsLoop : Prop :=
  ∀ s t : State,
    (exec .puts s = .next t → ∃ n, PutsRun n (s.reg .r0) s t) ∧
    (∀ n, n < 65536 * (s.host.polls.length + 2) → PutsRun n (s.reg .r0) s t → exec .puts s = .next t)

/-- R143: with a terminator before any keyboard cell, PUTS emits the low byte of each cell before it, in
order, and changes nothing else. The wrap of the pointer is the decision D21 (log 20), the order of output D20
(log 19). -/
def Obligations.PutsEmitsTheString : Prop :=
  ∀ (s : State) (k : Nat), k < 65536 →
    (∀ i, i < k → s.reg .r0 + BitVec.ofNat 16 i ≠ 0xFE00 ∧ s.cell (s.reg .r0 + BitVec.ofNat 16 i) ≠ 0x0000) →
    s.reg .r0 + BitVec.ofNat 16 k ≠ 0xFE00 → s.cell (s.reg .r0 + BitVec.ofNat 16 k) = 0x0000 →
    s.host.acceptsNext k = true →
    ∃ t, exec .puts s = .next t ∧
      t.host.output = s.host.output ++ (cellsFrom s (s.reg .r0) k).map (fun c => c.setWidth 8) ∧
      t.host.input = s.host.input ∧ RegsKept [] s t ∧ CellsKept [] s t ∧
      t.cond = s.cond ∧ t.pc = s.pc ∧ t.status = s.status

/-- R145: PUTSP is its loop. Every end of the loop is reached: the read of 0xFE00 answers a word whose low
byte is 0 (R42), so every string ends there at the latest. Rests on the decisions D7, D20 and D21 (log 7, 19,
20). -/
def Obligations.PutspIsItsLoop : Prop :=
  ∀ s t : State, exec .putsp s = .next t ↔ ∃ n, PutspRun n (s.reg .r0) s t

/-- R42, R145: PUTSP walks past no more than all of memory, since it polls at 0xFE00 and wraps (D7, D21, log 7,
20); only a host that never answers a poll keeps it (D24, log 18), since a write always has an answer (R148, R246,
DEDUCED in log 26). -/
def Obligations.PutspAlwaysEnds : Prop :=
  ∀ s : State, (∃ t, exec .putsp s = .next t) ∨ exec .putsp s = .fault .hostSilent

/-- R145: with a terminator before any keyboard cell, PUTSP emits the low byte of each cell before it and
then its high byte if that is not zero, in order, and changes nothing else. The wrap of the pointer is the
decision D21 (log 20), the order of output D20 (log 19). -/
def Obligations.PutspEmitsThePackedString : Prop :=
  ∀ (s : State) (k : Nat), k < 65536 →
    (∀ i, i < k → s.reg .r0 + BitVec.ofNat 16 i ≠ 0xFE00 ∧
      (s.cell (s.reg .r0 + BitVec.ofNat 16 i)).setWidth 8 ≠ 0x00#8) →
    s.reg .r0 + BitVec.ofNat 16 k ≠ 0xFE00 → (s.cell (s.reg .r0 + BitVec.ofNat 16 k)).setWidth 8 = 0x00#8 →
    s.host.acceptsNext ((cellsFrom s (s.reg .r0) k).flatMap emittedPair).length = true →
    ∃ t, exec .putsp s = .next t ∧
      t.host.output = s.host.output ++ (cellsFrom s (s.reg .r0) k).flatMap emittedPair ∧
      t.host.input = s.host.input ∧ RegsKept [] s t ∧ CellsKept [] s t ∧
      t.cond = s.cond ∧ t.pc = s.pc ∧ t.status = s.status

/-- R146: status <- Halted. That nothing else happens, no output among it, is the decision D14 (log 14). -/
def Obligations.HaltSetsTheStatusAlone : Prop :=
  ∀ s : State, ∃ t, exec .halt s = .next t ∧ OnlyStatusChanged .halted s t

/-! ### Reserved opcodes and fatal errors (44_reserved.md, 60_exceptions.md) -/

/-- R160, R161: a word with opcode 0x8 or 0xD is fatal whatever its other bits, with the opcode as the reason;
nothing else changes. -/
def Obligations.ReservedOpcodesAreFatal : Prop :=
  ∀ (w : Word) (s : State),
    (∃ t, exec .rti s = .next t ∧ OnlyStatusChanged (.fatal (.unsupportedOpcode 0x8)) s t) ∧
    (∃ t, exec .res s = .next t ∧ OnlyStatusChanged (.fatal (.unsupportedOpcode 0xD)) s t) ∧
    (w &&& 0xF000 = 0x8000 → decode w = .rti) ∧ (w &&& 0xF000 = 0xD000 → decode w = .res)

/-- R28, R200: which instructions can set the run status, with the reason of each; IoError comes from the
instructions that read memory or run GETC, OUT, PUTS, IN or PUTSP (R127, R141-R145) alone. Rests on D9, D15, D20
and D22 (log 9, 15, 19, 21). -/
def Obligations.EveryStopHasItsCause : Prop :=
  ∀ (i : Instr) (s t : State), s.status = .running → exec i s = .next t →
    (t.status = .halted → i = .halt ∨ i = .trap 0x25) ∧
    (∀ op, t.status = .fatal (.unsupportedOpcode op) → (i = .rti ∧ op = 0x8) ∨ (i = .res ∧ op = 0xD)) ∧
    (∀ v, t.status = .fatal (.unknownTrapVector v) → i = .trap v ∧ (v.toNat < 0x20 ∨ 0x25 < v.toNat)) ∧
    t.status ≠ .fatal .pcOutOfRange ∧
    (t.status = .fatal .ioError → mayFailIo i = true)

/-! ### The whole machine -/

/-- R22: which instructions write which general register; every other register is unchanged. -/
def Obligations.OnlyTheNamedRegisterIsWritten : Prop :=
  ∀ (i : Instr) (s t : State), exec i s = .next t → RegsKept (destination i).toList s t

/-- R23: an instruction that does not transfer control leaves PC. -/
def Obligations.OnlyTransfersWritePc : Prop :=
  ∀ (i : Instr) (s t : State), transfersControl i = false → exec i s = .next t → t.pc = s.pc

/-- R44: an instruction that makes no access keeps all of memory, one that only reads keeps all but the two
keyboard cells (it may poll: D7, log 7). -/
def Obligations.MemoryChangesByStoresAndPollsAlone : Prop :=
  ∀ (i : Instr) (s t : State), exec i s = .next t →
    (accessShape i = .untouched → CellsKept [] s t) ∧
    (accessShape i = .reading → CellsKept [0xFE00, 0xFE02] s t)

/-- R75: one step of a running engine is the fetched word's instruction, run with PC past it; the fetch from
0xFFFF is fatal (D5, log 5) and the fetch from 0xFE00 polls (D7, log 7), which may never be answered (D24,
log 18). -/
def Obligations.StepRunsTheDecodedInstruction : Prop :=
  ∀ s : State, s.status = .running →
    (s.pc ≠ 0xFE00 → s.pc ≠ 0xFFFF →
      step s = exec (decode (s.cell s.pc)) { s with pc := s.pc + 1 }) ∧
    (s.pc = 0xFFFF → step s = .next { s with status := .fatal .pcOutOfRange }) ∧
    (∀ w s', s.pc = 0xFE00 → memRead 0xFE00 s = .done w s' →
      step s = exec (decode w) { s' with pc := 0xFE01 }) ∧
    (∀ r s', s.pc = 0xFE00 → memRead 0xFE00 s = .fatal r s' → step s = .next { s' with status := .fatal r }) ∧
    (∀ f, s.pc = 0xFE00 → memRead 0xFE00 s = .stuck f → step s = .fault f)

/-- The host's placement of a word makes it the next instruction, and its reading of a word is the decoder's
(the model's own, log 24). -/
def Obligations.PlacedWordRunsNext : Prop :=
  ∀ (w : Word) (s : State),
    decodeTableWord 16 w.toNat = some (decode w) ∧
    (s.status = .running → s.pc ≠ 0xFE00 → s.pc ≠ 0xFFFF →
      step (s.withFetchWord 16 w.toNat) =
        exec (decode w) { s.withFetchWord 16 w.toNat with pc := s.pc + 1 })

/-- R74: the cycle runs while the status is Running and no further. The names of the model's two stops are the
model's own (log 15). -/
def Obligations.StoppedEngineRunsNoCycle : Prop :=
  ∀ s : State,
    (s.status = .running → step s = (fetch s).andThen fun w s' => exec (decode w) s') ∧
    (s.status ≠ .running → ∀ t, step s ≠ .next t) ∧
    (s.status = .halted → step s = .fault .halted) ∧
    (∀ r, s.status = .fatal r → step s = .fault (.fatal r))

/-- R31, R240: the state after reset. That unwritten memory is 0x0000 is the decision D10 (log 10), that COND
is 0b000 the resolution of C1 (log 28). -/
def Obligations.ResetStateIsTheTableOfR31 : Prop :=
  (∀ r, State.reset.reg r = 0x0000) ∧ State.reset.pc = 0x3000 ∧ State.reset.cond = .none ∧
    State.reset.cond.bits = 0b000 ∧ State.reset.status = .running ∧ ∀ a, State.reset.cell a = 0x0000

/-- R242, R243, R31, R240: the image's words lie from its origin on, every other cell is 0x0000 (D10, log 10), and
the rest is the reset state: registers 0x0000, status Running, and COND without a flag (C1, log 28). PC is not set
from the image. An image that would not fit is refused (D11, log 11). -/
def Obligations.BootPlacesTheImage : Prop :=
  ∀ (origin : Word) (ws : List Word), origin.toNat + ws.length ≤ 65536 →
    ∃ t, boot ((origin :: ws).flatMap bigEndian) = .next t ∧
      (∀ i (h : i < ws.length), t.cell (origin + BitVec.ofNat 16 i) = ws[i]) ∧
      (∀ a : Word, a.toNat < origin.toNat ∨ origin.toNat + ws.length ≤ a.toNat → t.cell a = 0x0000) ∧
      (∀ r, t.reg r = 0x0000) ∧ t.pc = 0x3000 ∧ t.cond = .none ∧ t.status = .running

/-- R215, R242: no engine state for an image that ends mid-word, is empty, or would pass 0xFFFF (the last two
are the decision D11, log 11). -/
def Obligations.BootRefusesBadImages : Prop :=
  boot [] = .refused .imageEmpty ∧
  (∀ image : List Byte, image.length % 2 = 1 → boot image = .refused .imageMidWord) ∧
  (∀ (origin : Word) (ws : List Word), 65536 < origin.toNat + ws.length →
    boot ((origin :: ws).flatMap bigEndian) = .refused .imagePastTop)

/-- Equal memories are equal data: the canonical form is the model's own (log 22). -/
def Obligations.CanonicalMemoryIsWhatItReads : Prop :=
  ∀ m m' : Memory, m.wf = true → m'.wf = true → (∀ a : Word, m.read a = m'.read a) → m = m'

/-- R214 (D8, D16, log 8, 16): the input is one stream, each byte delivered once, to a poll or to a read,
whichever comes first; nothing else consumes it. -/
def Obligations.EachInputByteIsDeliveredOnce : Prop :=
  ∀ h h' : HostLink,
    (∀ b, hostPoll h = some (.present b, h') → h.input = b :: h'.input ∨ (h.input = [] ∧ h'.input = [])) ∧
    (hostPoll h = some (.absent, h') → h'.input = h.input) ∧
    (hostPoll h = some (.fail, h') → h'.input = h.input) ∧
    (∀ b, hostGetByte h = some (.byte b, h') → h.input = b :: h'.input ∨ (h.input = [] ∧ h'.input = [])) ∧
    (hostGetByte h = some (.fail, h') → h'.input = h.input) ∧
    (∀ b, (hostPutByte b h).2.input = h.input)

/-- R148, R214 (D20, log 19): whatever a cycle does, the bytes already written stay, in order: output only
grows at its end. -/
def Obligations.OutputOnlyGrows : Prop :=
  ∀ s t : State, step s = .next t → s.host.output <+: t.host.output

/-- R214 (D8, D16, log 8, 16): whatever a cycle does, input is taken from the front of the one stream. -/
def Obligations.InputIsTakenInOrder : Prop :=
  ∀ s t : State, step s = .next t → t.host.input <:+ s.host.input

/-- R40, R200, R201: the invariant — memory in canonical form (log 22), a fatal status with a reason and PC
the spec gives it (D5, D15, log 5, 15) — is kept by every step. -/
def Obligations.StepKeepsTheInvariant : Prop :=
  ∀ s t : State, s.inv = true → step s = .next t → t.inv = true

/-- The invariant (log 15, 22) holds after reset. -/
def Obligations.ResetMeetsTheInvariant : Prop :=
  State.reset.inv = true

/-- The corollary of the step lemma: the invariant holds of every state a run of any image reaches, whatever host
the run has (log 18), reset's among them (log 25). As there, the canonical form is log 22, the fatal reasons and
the PC kept with PcOutOfRange are R200, R201, D5 and D15 (log 5, 15). -/
def Obligations.EveryReachableStateMeetsTheInvariant : Prop :=
  ∀ (image : List Byte) (h : HostLink) (s t : State), boot image = .next s →
    Reaches (s.setHost h) t → t.inv = true
end

