-- ==== Sys2Proof/Laws/State.lean ====
section
/-! SUPPORT. One lemma per field and update of the state, and the laws of the register file. -/
namespace Sys2Proof.Machine

/-! ### Registers -/

@[simp] theorem RegFile.read_write_same (f : RegFile) (r : Reg) (v : Word) : (f.write r v).read r = v := by
  cases r <;> rfl

theorem RegFile.read_write_other (f : RegFile) {r q : Reg} (v : Word) (h : q ≠ r) :
    (f.write r v).read q = f.read q := by
  cases r <;> cases q <;> first | rfl | exact absurd rfl h

theorem RegFile.read_write (f : RegFile) (r q : Reg) (v : Word) :
    (f.write r v).read q = if q = r then v else f.read q := by
  split
  · next h => rw [h, RegFile.read_write_same]
  · next h => exact RegFile.read_write_other f v h

/-- Registers are told apart by reading them. -/
theorem RegFile.ext_read {f g : RegFile} (h : ∀ r, f.read r = g.read r) : f = g := by
  cases f; cases g
  have h0 := h .r0; have h1 := h .r1; have h2 := h .r2; have h3 := h .r3
  have h4 := h .r4; have h5 := h .r5; have h6 := h .r6; have h7 := h .r7
  simp only [RegFile.read] at h0 h1 h2 h3 h4 h5 h6 h7
  simp only [h0, h1, h2, h3, h4, h5, h6, h7]

/-! ### setReg -/

@[simp] theorem State.setReg_reg_same (s : State) (r : Reg) (v : Word) : (s.setReg r v).reg r = v :=
  RegFile.read_write_same _ _ _
theorem State.setReg_reg_other (s : State) {r q : Reg} (v : Word) (h : q ≠ r) : (s.setReg r v).reg q = s.reg q :=
  RegFile.read_write_other _ _ h
@[simp] theorem State.setReg_pc (s : State) (r : Reg) (v : Word) : (s.setReg r v).pc = s.pc := rfl
@[simp] theorem State.setReg_cond (s : State) (r : Reg) (v : Word) : (s.setReg r v).cond = s.cond := rfl
@[simp] theorem State.setReg_mem (s : State) (r : Reg) (v : Word) : (s.setReg r v).mem = s.mem := rfl
@[simp] theorem State.setReg_cell (s : State) (r : Reg) (v a : Word) : (s.setReg r v).cell a = s.cell a := rfl
@[simp] theorem State.setReg_status (s : State) (r : Reg) (v : Word) : (s.setReg r v).status = s.status := rfl
@[simp] theorem State.setReg_host (s : State) (r : Reg) (v : Word) : (s.setReg r v).host = s.host := rfl

/-! ### setPc -/

@[simp] theorem State.setPc_pc (s : State) (v : Word) : (s.setPc v).pc = v := rfl
@[simp] theorem State.setPc_regs (s : State) (v : Word) : (s.setPc v).regs = s.regs := rfl
@[simp] theorem State.setPc_reg (s : State) (v : Word) (q : Reg) : (s.setPc v).reg q = s.reg q := rfl
@[simp] theorem State.setPc_cond (s : State) (v : Word) : (s.setPc v).cond = s.cond := rfl
@[simp] theorem State.setPc_mem (s : State) (v : Word) : (s.setPc v).mem = s.mem := rfl
@[simp] theorem State.setPc_cell (s : State) (v a : Word) : (s.setPc v).cell a = s.cell a := rfl
@[simp] theorem State.setPc_status (s : State) (v : Word) : (s.setPc v).status = s.status := rfl
@[simp] theorem State.setPc_host (s : State) (v : Word) : (s.setPc v).host = s.host := rfl

/-! ### setCond -/

@[simp] theorem State.setCond_cond (s : State) (c : Cond) : (s.setCond c).cond = c := rfl
@[simp] theorem State.setCond_regs (s : State) (c : Cond) : (s.setCond c).regs = s.regs := rfl
@[simp] theorem State.setCond_reg (s : State) (c : Cond) (q : Reg) : (s.setCond c).reg q = s.reg q := rfl
@[simp] theorem State.setCond_pc (s : State) (c : Cond) : (s.setCond c).pc = s.pc := rfl
@[simp] theorem State.setCond_mem (s : State) (c : Cond) : (s.setCond c).mem = s.mem := rfl
@[simp] theorem State.setCond_cell (s : State) (c : Cond) (a : Word) : (s.setCond c).cell a = s.cell a := rfl
@[simp] theorem State.setCond_status (s : State) (c : Cond) : (s.setCond c).status = s.status := rfl
@[simp] theorem State.setCond_host (s : State) (c : Cond) : (s.setCond c).host = s.host := rfl

/-! ### setStatus -/

@[simp] theorem State.setStatus_status (s : State) (v : Status) : (s.setStatus v).status = v := rfl
@[simp] theorem State.setStatus_regs (s : State) (v : Status) : (s.setStatus v).regs = s.regs := rfl
@[simp] theorem State.setStatus_reg (s : State) (v : Status) (q : Reg) : (s.setStatus v).reg q = s.reg q := rfl
@[simp] theorem State.setStatus_pc (s : State) (v : Status) : (s.setStatus v).pc = s.pc := rfl
@[simp] theorem State.setStatus_cond (s : State) (v : Status) : (s.setStatus v).cond = s.cond := rfl
@[simp] theorem State.setStatus_mem (s : State) (v : Status) : (s.setStatus v).mem = s.mem := rfl
@[simp] theorem State.setStatus_cell (s : State) (v : Status) (a : Word) : (s.setStatus v).cell a = s.cell a := rfl
@[simp] theorem State.setStatus_host (s : State) (v : Status) : (s.setStatus v).host = s.host := rfl

/-! ### setHost -/

@[simp] theorem State.setHost_host (s : State) (h : HostLink) : (s.setHost h).host = h := rfl
@[simp] theorem State.setHost_regs (s : State) (h : HostLink) : (s.setHost h).regs = s.regs := rfl
@[simp] theorem State.setHost_reg (s : State) (h : HostLink) (q : Reg) : (s.setHost h).reg q = s.reg q := rfl
@[simp] theorem State.setHost_pc (s : State) (h : HostLink) : (s.setHost h).pc = s.pc := rfl
@[simp] theorem State.setHost_cond (s : State) (h : HostLink) : (s.setHost h).cond = s.cond := rfl
@[simp] theorem State.setHost_mem (s : State) (h : HostLink) : (s.setHost h).mem = s.mem := rfl
@[simp] theorem State.setHost_cell (s : State) (h : HostLink) (a : Word) : (s.setHost h).cell a = s.cell a := rfl
@[simp] theorem State.setHost_status (s : State) (h : HostLink) : (s.setHost h).status = s.status := rfl

/-! ### memWrite -/

@[simp] theorem memWrite_mem (a v : Word) (s : State) : (memWrite a v s).mem = s.mem.write a v := rfl
@[simp] theorem memWrite_regs (a v : Word) (s : State) : (memWrite a v s).regs = s.regs := rfl
@[simp] theorem memWrite_reg (a v : Word) (s : State) (q : Reg) : (memWrite a v s).reg q = s.reg q := rfl
@[simp] theorem memWrite_pc (a v : Word) (s : State) : (memWrite a v s).pc = s.pc := rfl
@[simp] theorem memWrite_cond (a v : Word) (s : State) : (memWrite a v s).cond = s.cond := rfl
@[simp] theorem memWrite_status (a v : Word) (s : State) : (memWrite a v s).status = s.status := rfl
@[simp] theorem memWrite_host (a v : Word) (s : State) : (memWrite a v s).host = s.host := rfl

/-! ### raiseFatal -/

@[simp] theorem raiseFatal_status (r : FatalReason) (s : State) : (raiseFatal r s).status = .fatal r := rfl
@[simp] theorem raiseFatal_regs (r : FatalReason) (s : State) : (raiseFatal r s).regs = s.regs := rfl
@[simp] theorem raiseFatal_reg (r : FatalReason) (s : State) (q : Reg) : (raiseFatal r s).reg q = s.reg q := rfl
@[simp] theorem raiseFatal_pc (r : FatalReason) (s : State) : (raiseFatal r s).pc = s.pc := rfl
@[simp] theorem raiseFatal_cond (r : FatalReason) (s : State) : (raiseFatal r s).cond = s.cond := rfl
@[simp] theorem raiseFatal_mem (r : FatalReason) (s : State) : (raiseFatal r s).mem = s.mem := rfl
@[simp] theorem raiseFatal_cell (r : FatalReason) (s : State) (a : Word) : (raiseFatal r s).cell a = s.cell a := rfl
@[simp] theorem raiseFatal_host (r : FatalReason) (s : State) : (raiseFatal r s).host = s.host := rfl

/-! ### setcc and writeResult -/

@[simp] theorem setcc_cond (v : Word) (s : State) : (setcc v s).cond = condOf v := rfl
@[simp] theorem writeResult_cond (d : Reg) (v : Word) (s : State) : (writeResult d v s).cond = condOf v := rfl
@[simp] theorem writeResult_reg_same (d : Reg) (v : Word) (s : State) : (writeResult d v s).reg d = v :=
  State.setReg_reg_same s d v
theorem writeResult_reg_other (v : Word) (s : State) {d q : Reg} (h : q ≠ d) :
    (writeResult d v s).reg q = s.reg q :=
  State.setReg_reg_other s v h
@[simp] theorem writeResult_pc (d : Reg) (v : Word) (s : State) : (writeResult d v s).pc = s.pc := rfl
@[simp] theorem writeResult_mem (d : Reg) (v : Word) (s : State) : (writeResult d v s).mem = s.mem := rfl
@[simp] theorem writeResult_cell (d : Reg) (v : Word) (s : State) (a : Word) :
    (writeResult d v s).cell a = s.cell a := rfl
@[simp] theorem writeResult_status (d : Reg) (v : Word) (s : State) : (writeResult d v s).status = s.status := rfl
@[simp] theorem writeResult_host (d : Reg) (v : Word) (s : State) : (writeResult d v s).host = s.host := rfl

end Sys2Proof.Machine
end

