-- ==== Sys2Proof/Laws/Memory.lean ====
section
/-! SUPPORT. Memory: read after write, and the canonical form under every operation. -/
namespace Sys2Proof.Machine

theorem Memory.lookup_erase (m : Memory) (k j : Nat) :
    (m.erase k).lookup j = if j = k then unlistedCell else m.lookup j := by
  induction m with
  | nil => simp [Memory.erase, Memory.lookup]
  | cons c rest ih =>
    obtain ⟨k', v⟩ := c
    by_cases hk : k = k'
    · by_cases hj : j = k
      · simpa [Memory.erase, hk, hj] using ih
      · simp only [Memory.erase, if_pos hk, ih, if_neg hj, Memory.lookup, if_neg (hk ▸ hj : ¬ j = k')]
    · simp only [Memory.erase, if_neg hk, Memory.lookup, ih]
      by_cases hj : j = k
      · simp [hj, hk]
      · simp [hj]

theorem Memory.lookup_insert (m : Memory) (k j : Nat) (v : Word) :
    (m.insert k v).lookup j = if j = k then v else m.lookup j := by
  induction m with
  | nil => rfl
  | cons c rest ih =>
    obtain ⟨k', v'⟩ := c
    simp only [Memory.insert]
    split
    · simp only [Memory.lookup]
    · split
      · next hk =>
        subst hk
        simp only [Memory.lookup]
        split <;> rfl
      · next hk =>
        simp only [Memory.lookup, ih]
        by_cases hj : j = k
        · simp [hj, hk]
        · simp [hj]

/-- A store sets its cell and no other. -/
theorem Memory.lookup_store (m : Memory) (k j : Nat) (v : Word) :
    (m.store k v).lookup j = if j = k then v else m.lookup j := by
  unfold Memory.store
  split
  · next hv => rw [Memory.lookup_erase, hv]
  · exact Memory.lookup_insert m k j v

theorem Memory.wfFrom_mono {m : Memory} {lo lo' : Nat} (h : m.wfFrom lo = true) (hl : lo' ≤ lo) :
    m.wfFrom lo' = true := by
  cases m with
  | nil => rfl
  | cons c rest =>
    obtain ⟨k, v⟩ := c
    simp only [Memory.wfFrom, Bool.and_eq_true, decide_eq_true_eq] at h ⊢
    exact ⟨⟨⟨by omega, h.1.1.2⟩, h.1.2⟩, h.2⟩

theorem Memory.wfFrom_erase {m : Memory} {lo : Nat} (k : Nat) (h : m.wfFrom lo = true) :
    (m.erase k).wfFrom lo = true := by
  induction m generalizing lo with
  | nil => rfl
  | cons c rest ih =>
    obtain ⟨k', v⟩ := c
    simp only [Memory.wfFrom, Bool.and_eq_true, decide_eq_true_eq] at h
    simp only [Memory.erase]
    split
    · exact Memory.wfFrom_mono (ih h.2) (by omega)
    · simp only [Memory.wfFrom, Bool.and_eq_true, decide_eq_true_eq]
      exact ⟨h.1, ih h.2⟩

theorem Memory.wfFrom_insert {m : Memory} {lo k : Nat} {v : Word} (h : m.wfFrom lo = true)
    (hlo : lo ≤ k) (hk : k < 65536) (hv : v ≠ unlistedCell) : (m.insert k v).wfFrom lo = true := by
  induction m generalizing lo with
  | nil => simp [Memory.insert, Memory.wfFrom, hlo, hk, hv]
  | cons c rest ih =>
    obtain ⟨k', v'⟩ := c
    simp only [Memory.wfFrom, Bool.and_eq_true, decide_eq_true_eq] at h
    obtain ⟨⟨⟨hlo', hk'⟩, hv'⟩, hrest⟩ := h
    simp only [Memory.insert]
    split
    · next hlt => simp [Memory.wfFrom, hlo, hk, hv, hk', hv', hrest, Nat.succ_le_of_lt hlt]
    · split
      · next heq => subst heq; simp [Memory.wfFrom, hlo, hk, hv, hrest]
      · simp only [Memory.wfFrom, Bool.and_eq_true, decide_eq_true_eq]
        exact ⟨⟨⟨hlo', hk'⟩, hv'⟩, ih hrest (by omega)⟩

/-- Every write keeps the canonical form. -/
theorem Memory.wf_write {m : Memory} (a v : Word) (h : m.wf = true) : (m.write a v).wf = true := by
  unfold Memory.write Memory.store
  split
  · exact Memory.wfFrom_erase _ h
  · next hv => exact Memory.wfFrom_insert h (Nat.zero_le _) a.isLt hv

theorem Memory.read_write (m : Memory) (a b v : Word) :
    (m.write a v).read b = if b = a then v else m.read b := by
  unfold Memory.read Memory.write
  rw [Memory.lookup_store]
  by_cases hb : b = a
  · rw [if_pos hb, hb, if_pos rfl]
  · rw [if_neg hb, if_neg fun h => hb (BitVec.eq_of_toNat_eq h)]

@[simp] theorem Memory.read_write_same (m : Memory) (a v : Word) : (m.write a v).read a = v := by
  rw [Memory.read_write, if_pos rfl]

theorem Memory.read_write_other (m : Memory) {a b : Word} (v : Word) (h : b ≠ a) :
    (m.write a v).read b = m.read b := by
  rw [Memory.read_write, if_neg h]

@[simp] theorem memWrite_cell_same (a v : Word) (s : State) : (memWrite a v s).cell a = v :=
  Memory.read_write_same _ _ _

theorem memWrite_cell_other {a b : Word} (v : Word) (s : State) (h : b ≠ a) :
    (memWrite a v s).cell b = s.cell b :=
  Memory.read_write_other _ _ h

theorem memWrite_wf (a v : Word) (s : State) (h : s.mem.wf = true) : (memWrite a v s).mem.wf = true :=
  Memory.wf_write a v h

@[simp] theorem Memory.read_nil (a : Word) : Memory.read [] a = unlistedCell := rfl

theorem State.reset_mem_wf : State.reset.mem.wf = true := rfl

end Sys2Proof.Machine
end

