-- ==== Sys2Proof/Laws/Access.lean ====
section
/-! SUPPORT. Each shared operation with an outcome, inverted once: how a part of a cycle goes on, what the
host's operations, a poll, a read and a fetch can do. -/
namespace Sys2Proof.Machine

/-- Going on after a part of a cycle answers a next state through the part's end or its fatal error. -/
theorem Effect.andThen_next {α : Type} {e : Effect α} {k : α → State → Host.Outcome State Fault Refusal}
    {t : State} (h : e.andThen k = .next t) :
    (∃ a s, e = .done a s ∧ k a s = .next t) ∨ (∃ r s, e = .fatal r s ∧ t = raiseFatal r s) := by
  cases e with
  | done a s => exact .inl ⟨a, s, rfl, h⟩
  | fatal r s =>
    simp only [Effect.andThen, Host.Outcome.next.injEq] at h
    exact .inr ⟨r, s, rfl, h.symm⟩
  | stuck f => exact absurd h (by simp [Effect.andThen])

@[simp] theorem Effect.andThen_done {α : Type} (a : α) (s : State)
    (k : α → State → Host.Outcome State Fault Refusal) : (Effect.done a s).andThen k = k a s := rfl
@[simp] theorem Effect.andThen_fatal {α : Type} (r : FatalReason) (s : State)
    (k : α → State → Host.Outcome State Fault Refusal) :
    (Effect.fatal r s).andThen k = .next (raiseFatal r s) := rfl
@[simp] theorem Effect.andThen_stuck {α : Type} (f : Fault)
    (k : α → State → Host.Outcome State Fault Refusal) : (Effect.stuck f).andThen k = .fault f := rfl

/-! ### The host's streams: input is taken from the front, output grows at the end -/

theorem HostLink.takeByte_streams (h : HostLink) :
    h.takeByte.2.input <:+ h.input ∧ h.takeByte.2.output = h.output := by
  unfold HostLink.takeByte
  split
  · next b rest heq => exact ⟨⟨[b], by simp [heq]⟩, rfl⟩
  · exact ⟨List.suffix_rfl, rfl⟩

theorem HostLink.drawPoll_streams (h : HostLink) :
    h.drawPoll.2.input = h.input ∧ h.drawPoll.2.output = h.output := by
  unfold HostLink.drawPoll
  split <;> exact ⟨rfl, rfl⟩

theorem HostLink.drawRead_streams (h : HostLink) :
    h.drawRead.2.input = h.input ∧ h.drawRead.2.output = h.output := by
  unfold HostLink.drawRead
  split <;> exact ⟨rfl, rfl⟩

theorem HostLink.drawWrite_streams (h : HostLink) :
    h.drawWrite.2.input = h.input ∧ h.drawWrite.2.output = h.output := by
  unfold HostLink.drawWrite
  split <;> exact ⟨rfl, rfl⟩

theorem hostPoll_streams {h h' : HostLink} {a : PollAnswer} (hp : hostPoll h = some (a, h')) :
    h'.input <:+ h.input ∧ h'.output = h.output := by
  obtain ⟨hi, ho⟩ := h.drawPoll_streams
  unfold hostPoll at hp
  split at hp
  · next k h1 heq =>
    rw [heq] at hi ho
    have hs := h1.takeByte_streams
    cases k <;> simp only [HostLink.answerPoll, Option.some.injEq, Prod.mk.injEq] at hp <;> obtain ⟨-, rfl⟩ := hp
    · exact ⟨hi ▸ hs.1, hs.2.trans ho⟩
    · exact ⟨hi ▸ List.suffix_rfl, ho⟩
    · exact ⟨hi ▸ List.suffix_rfl, ho⟩
  · exact absurd hp (by simp)

theorem hostGetByte_streams {h h' : HostLink} {a : GetAnswer} (hp : hostGetByte h = some (a, h')) :
    h'.input <:+ h.input ∧ h'.output = h.output := by
  obtain ⟨hi, ho⟩ := h.drawRead_streams
  unfold hostGetByte at hp
  split at hp
  · next k h1 heq =>
    rw [heq] at hi ho
    have hs := h1.takeByte_streams
    cases k <;> simp only [HostLink.answerRead, Option.some.injEq, Prod.mk.injEq] at hp <;> obtain ⟨-, rfl⟩ := hp
    · exact ⟨hi ▸ hs.1, hs.2.trans ho⟩
    · exact ⟨hi ▸ List.suffix_rfl, ho⟩
  · exact absurd hp (by simp)

/-- A write either is accepted and joins the output, or fails and leaves both streams. -/
theorem hostPutByte_cases (b : Byte) (h : HostLink) :
    (hostPutByte b h).2.input = h.input ∧
      (((hostPutByte b h).1 = .ok ∧ (hostPutByte b h).2.output = h.output ++ [b]) ∨
        ((hostPutByte b h).1 = .fail ∧ (hostPutByte b h).2.output = h.output)) := by
  obtain ⟨hi, ho⟩ := h.drawWrite_streams
  unfold hostPutByte
  split
  · next h' heq => rw [heq] at hi ho; exact ⟨hi, .inl ⟨rfl, congrArg (· ++ [b]) ho⟩⟩
  · next h' heq => rw [heq] at hi ho; exact ⟨hi, .inr ⟨rfl, ho⟩⟩

/-- `putByte` changes the host's side alone. -/
theorem putByte_snd (b : Byte) (s : State) : (putByte b s).2 = s.setHost (hostPutByte b s.host).2 := rfl

/-- A series of writes changes the host's side alone, takes no input, and appends to the output. -/
theorem putBytes_host (bs : List Byte) (s : State) :
    ∃ h, (putBytes bs s).2 = s.setHost h ∧ h.input = s.host.input ∧ s.host.output <+: h.output ∧
      ((putBytes bs s).1 = .ok → h.output = s.host.output ++ bs) := by
  induction bs generalizing s with
  | nil => exact ⟨s.host, rfl, rfl, List.prefix_rfl, fun _ => (List.append_nil _).symm⟩
  | cons b rest ih =>
    obtain ⟨hi, ho⟩ := hostPutByte_cases b s.host
    have hsnd := putByte_snd b s
    simp only [putBytes]
    split
    · next s' heq =>
      rw [heq] at hsnd
      replace hsnd : s' = s.setHost (hostPutByte b s.host).2 := hsnd
      have hok : (hostPutByte b s.host).1 = .ok := congrArg Prod.fst heq
      obtain ⟨-, ho⟩ | ⟨hf, -⟩ := ho
      · obtain ⟨h, he, hin, hpre, hout⟩ := ih s'
        have hs' : s'.host = (hostPutByte b s.host).2 := congrArg State.host hsnd
        rw [hs'] at hin hpre hout
        rw [ho] at hpre hout
        refine ⟨h, ?_, hin.trans hi, (List.prefix_append _ _).trans hpre, fun hk => ?_⟩
        · rw [he, hsnd]; rfl
        · rw [hout hk]; simp
      · rw [hok] at hf; cases hf
    · next s' heq =>
      rw [heq] at hsnd
      refine ⟨_, hsnd, hi, ?_, fun hk => by cases hk⟩
      obtain ⟨-, ho⟩ | ⟨-, ho⟩ := ho
      · rw [ho]; exact List.prefix_append _ _
      · rw [ho]

/-! ### Polls, reads and fetches -/

/-- What a poll leaves: the host's side after its answer, and the two keyboard cells (R42). -/
theorem keyboardPoll_cases (s : State) :
    (∃ b h, hostPoll s.host = some (.present b, h) ∧
      keyboardPoll s = .done () (memWrite kbdr (zext8 b) (memWrite kbsr 0x8000 (s.setHost h)))) ∨
    (∃ h, hostPoll s.host = some (.absent, h) ∧ keyboardPoll s = .done () (memWrite kbsr 0x0000 (s.setHost h))) ∨
    (∃ h, hostPoll s.host = some (.fail, h) ∧ keyboardPoll s = .fatal .ioError (s.setHost h)) ∨
    (hostPoll s.host = none ∧ keyboardPoll s = .stuck .hostSilent) := by
  unfold keyboardPoll
  split
  · next a h heq =>
    cases a with
    | present b => exact .inl ⟨b, h, heq, rfl⟩
    | absent => exact .inr (.inl ⟨h, heq, rfl⟩)
    | fail => exact .inr (.inr (.inl ⟨h, heq, rfl⟩))
  · next heq => exact .inr (.inr (.inr ⟨heq, rfl⟩))

@[simp] theorem memRead_plain {a : Word} (s : State) (h : a ≠ kbsr) : memRead a s = .done (s.cell a) s :=
  if_neg h

/-- A read of 0xFE00 after its poll. -/
theorem memRead_kbsr_cases (s : State) :
    (∃ b h, hostPoll s.host = some (.present b, h) ∧
      memRead kbsr s = .done 0x8000 (memWrite kbdr (zext8 b) (memWrite kbsr 0x8000 (s.setHost h)))) ∨
    (∃ h, hostPoll s.host = some (.absent, h) ∧ memRead kbsr s = .done 0x0000 (memWrite kbsr 0x0000 (s.setHost h))) ∨
    (∃ h, hostPoll s.host = some (.fail, h) ∧ memRead kbsr s = .fatal .ioError (s.setHost h)) ∨
    (hostPoll s.host = none ∧ memRead kbsr s = .stuck .hostSilent) := by
  unfold memRead
  rw [if_pos rfl]
  obtain ⟨b, h, hp, hk⟩ | ⟨h, hp, hk⟩ | ⟨h, hp, hk⟩ | ⟨hp, hk⟩ := keyboardPoll_cases s <;> rw [hk]
  · refine .inl ⟨b, h, hp, ?_⟩
    have : (memWrite kbdr (zext8 b) (memWrite kbsr 0x8000 (s.setHost h))).cell kbsr = 0x8000 := by
      rw [memWrite_cell_other _ _ (by decide), memWrite_cell_same]
    simp only [this]
  · refine .inr (.inl ⟨h, hp, ?_⟩)
    simp only [memWrite_cell_same]
  · exact .inr (.inr (.inl ⟨h, hp, rfl⟩))
  · exact .inr (.inr (.inr ⟨hp, rfl⟩))

/-- What is the same before and after a read, a poll's two cells apart: the read's frame. -/
structure ReadFrame (s t : State) : Prop where
  regs : t.regs = s.regs
  pc : t.pc = s.pc
  cond : t.cond = s.cond
  status : t.status = s.status
  cells : ∀ a, a ≠ kbsr → a ≠ kbdr → t.cell a = s.cell a
  wf : s.mem.wf = true → t.mem.wf = true
  input : t.host.input <:+ s.host.input
  output : t.host.output = s.host.output

theorem ReadFrame.refl (s : State) : ReadFrame s s :=
  ⟨rfl, rfl, rfl, rfl, fun _ _ _ => rfl, id, List.suffix_rfl, rfl⟩

theorem ReadFrame.trans {s t u : State} (h : ReadFrame s t) (k : ReadFrame t u) : ReadFrame s u :=
  ⟨k.regs.trans h.regs, k.pc.trans h.pc, k.cond.trans h.cond, k.status.trans h.status,
    fun a ha hb => (k.cells a ha hb).trans (h.cells a ha hb), fun hw => k.wf (h.wf hw),
    k.input.trans h.input, k.output.trans h.output⟩

/-- A read that is done keeps its frame. -/
theorem memRead_done_frame {a v : Word} {s t : State} (h : memRead a s = .done v t) : ReadFrame s t := by
  by_cases ha : a = kbsr
  · subst ha
    obtain ⟨b, k, hp, hm⟩ | ⟨k, hp, hm⟩ | ⟨k, hp, hm⟩ | ⟨hp, hm⟩ := memRead_kbsr_cases s <;> rw [hm] at h <;>
      simp only [Effect.done.injEq, reduceCtorEq] at h <;> obtain ⟨-, rfl⟩ := h <;> have hs := hostPoll_streams hp
    · refine ⟨rfl, rfl, rfl, rfl, fun c hc hd => ?_, fun hw => ?_, hs.1, hs.2⟩
      · rw [memWrite_cell_other _ _ hd, memWrite_cell_other _ _ hc]; rfl
      · exact memWrite_wf _ _ _ (memWrite_wf _ _ (s.setHost k) hw)
    · refine ⟨rfl, rfl, rfl, rfl, fun c hc _ => ?_, fun hw => memWrite_wf _ _ (s.setHost k) hw, hs.1, hs.2⟩
      rw [memWrite_cell_other _ _ hc]; rfl
  · rw [memRead_plain s ha, Effect.done.injEq] at h
    obtain ⟨-, rfl⟩ := h
    exact ReadFrame.refl s

/-- A read that is fatal is a failed poll: the reason is IoError, and only the host's side has changed. -/
theorem memRead_fatal_frame {a : Word} {r : FatalReason} {s t : State} (h : memRead a s = .fatal r t) :
    a = kbsr ∧ r = .ioError ∧ (∃ k, hostPoll s.host = some (.fail, k) ∧ t = s.setHost k) ∧ ReadFrame s t := by
  by_cases ha : a = kbsr
  · subst ha
    obtain ⟨b, k, hp, hm⟩ | ⟨k, hp, hm⟩ | ⟨k, hp, hm⟩ | ⟨hp, hm⟩ := memRead_kbsr_cases s <;> rw [hm] at h <;>
      simp only [Effect.fatal.injEq, reduceCtorEq] at h
    obtain ⟨rfl, rfl⟩ := h
    have hs := hostPoll_streams hp
    exact ⟨rfl, rfl, ⟨k, hp, rfl⟩, rfl, rfl, rfl, rfl, fun _ _ _ => rfl, id, hs.1, hs.2⟩
  · rw [memRead_plain s ha] at h
    exact absurd h (by simp)

/-- A read never ends only at 0xFE00, when the host never answers the poll. -/
theorem memRead_stuck {a : Word} {f : Fault} {s : State} (h : memRead a s = .stuck f) :
    a = kbsr ∧ f = .hostSilent ∧ hostPoll s.host = none := by
  by_cases ha : a = kbsr
  · subst ha
    obtain ⟨b, k, hp, hm⟩ | ⟨k, hp, hm⟩ | ⟨k, hp, hm⟩ | ⟨hp, hm⟩ := memRead_kbsr_cases s <;> rw [hm] at h <;>
      simp only [Effect.stuck.injEq, reduceCtorEq] at h
    exact ⟨rfl, h.symm, hp⟩
  · rw [memRead_plain s ha] at h
    exact absurd h (by simp)

/-- What a fetch can do (R75). -/
theorem fetch_cases (s : State) :
    (∃ w t, memRead s.pc s = .done w t ∧ s.pc ≠ topAddress ∧ fetch s = .done w (t.setPc (s.pc + 1))) ∨
    (∃ w t, memRead s.pc s = .done w t ∧ s.pc = topAddress ∧ fetch s = .fatal .pcOutOfRange t) ∨
    (∃ t, memRead s.pc s = .fatal .ioError t ∧ fetch s = .fatal .ioError t) ∨
    (memRead s.pc s = .stuck .hostSilent ∧ fetch s = .stuck .hostSilent) := by
  unfold fetch
  split
  · next w t heq =>
    split
    · next htop => exact .inr (.inl ⟨w, t, heq, htop, rfl⟩)
    · next htop => exact .inl ⟨w, t, heq, htop, rfl⟩
  · next r t heq =>
    obtain ⟨-, rfl, -⟩ := memRead_fatal_frame heq
    exact .inr (.inr (.inl ⟨t, heq, rfl⟩))
  · next f heq =>
    obtain ⟨-, rfl, -⟩ := memRead_stuck heq
    exact .inr (.inr (.inr ⟨heq, rfl⟩))

/-- A step that answers next has run one cycle of a running engine: the fetched instruction, or the fatal
error of the fetch. -/
theorem step_cases {s t : State} (h : step s = .next t) :
    s.status = .running ∧
      ((∃ w s', fetch s = .done w s' ∧ exec (decode w) s' = .next t) ∨
        (∃ r s', fetch s = .fatal r s' ∧ t = raiseFatal r s')) := by
  unfold step at h
  split at h
  · next hr => exact ⟨hr, Effect.andThen_next h⟩
  · exact absurd h (by simp)
  · exact absurd h (by simp)

end Sys2Proof.Machine
end

