-- ==== Sys2Proof/Laws/Encoding.lean ====
section
/-! SUPPORT. Register and opcode fields, and reading a field back from where it was put. -/
namespace Sys2Proof

@[simp] theorem Reg.ofField_field (r : Reg) : Reg.ofField r.field = r := by cases r <;> rfl

@[simp] theorem Opcode.ofField_field (op : Opcode) : Opcode.ofField op.field = op := by cases op <;> rfl

/-- Bit i of a placed field. -/
theorem getLsbD_atBit {n : Nat} (lo : Nat) (f : BitVec n) (i : Nat) :
    (atBit lo f).getLsbD i = (decide (i < 16) && (!decide (i < lo) && f.getLsbD (i - lo))) := by
  unfold atBit
  rw [BitVec.getLsbD_shiftLeft, BitVec.getLsbD_setWidth]
  by_cases h : i < 16
  · simp [h, show i - lo < 16 by omega]
  · simp [h]

/-- A field read where it was put. -/
theorem extract_atBit_same {n lo : Nat} (f : BitVec n) (h : lo + n ≤ 16) : (atBit lo f).extractLsb' lo n = f := by
  apply BitVec.eq_of_getLsbD_eq
  intro i hi
  rw [BitVec.getLsbD_extractLsb', getLsbD_atBit, Nat.add_sub_cancel_left]
  simp [hi, show lo + i < 16 by omega]

/-- A field read above where it was put: nothing is there. -/
theorem extract_atBit_above {n lo start len : Nat} (f : BitVec n) (h : lo + n ≤ start) :
    (atBit lo f).extractLsb' start len = 0 := by
  apply BitVec.eq_of_getLsbD_eq
  intro i hi
  rw [BitVec.getLsbD_extractLsb', getLsbD_atBit, BitVec.getLsbD_of_ge f _ (by omega)]
  simp

/-- A field read below where it was put: nothing is there. -/
theorem extract_atBit_below {n lo start len : Nat} (f : BitVec n) (h : start + len ≤ lo) :
    (atBit lo f).extractLsb' start len = 0 := by
  apply BitVec.eq_of_getLsbD_eq
  intro i hi
  rw [BitVec.getLsbD_extractLsb', getLsbD_atBit]
  simp [show start + i < lo by omega]

end Sys2Proof
end

