-- ==== Sys2Proof/Laws/PerInstr.lean ====
section
/-! SUPPORT. One lemma per instruction: its word matches its row of spec/opcode_table.json. -/
namespace Sys2Proof.Laws

/-- The `mask` column of an instruction's row of spec/opcode_table.json. -/
def rowMask : Instr → Word
  | .addReg _ _ _ => 0xF020
  | .addImm _ _ _ => 0xF020
  | .andReg _ _ _ => 0xF020
  | .andImm _ _ _ => 0xF020
  | .not _ _ => 0xF000
  | .br _ _ _ _ => 0xF000
  | .jmp _ => 0xF000
  | .jsr _ => 0xF800
  | .jsrr _ => 0xF800
  | .ld _ _ => 0xF000
  | .ldi _ _ => 0xF000
  | .ldr _ _ _ => 0xF000
  | .lea _ _ => 0xF000
  | .st _ _ => 0xF000
  | .sti _ _ => 0xF000
  | .str _ _ _ => 0xF000
  | .trap _ => 0xF000
  | .rti => 0xF000
  | .res => 0xF000
  | .ret => 0xF1C0
  | .nop _ => 0xFE00
  | .getc => 0xF0FF
  | .out => 0xF0FF
  | .puts => 0xF0FF
  | .in_ => 0xF0FF
  | .putsp => 0xF0FF
  | .halt => 0xF0FF

/-- The `match` column of an instruction's row of spec/opcode_table.json. -/
def rowMatch : Instr → Word
  | .addReg _ _ _ => 0x1000
  | .addImm _ _ _ => 0x1020
  | .andReg _ _ _ => 0x5000
  | .andImm _ _ _ => 0x5020
  | .not _ _ => 0x9000
  | .br _ _ _ _ => 0x0000
  | .jmp _ => 0xC000
  | .jsr _ => 0x4800
  | .jsrr _ => 0x4000
  | .ld _ _ => 0x2000
  | .ldi _ _ => 0xA000
  | .ldr _ _ _ => 0x6000
  | .lea _ _ => 0xE000
  | .st _ _ => 0x3000
  | .sti _ _ => 0xB000
  | .str _ _ _ => 0x7000
  | .trap _ => 0xF000
  | .rti => 0x8000
  | .res => 0xD000
  | .ret => 0xC1C0
  | .nop _ => 0x0000
  | .getc => 0xF020
  | .out => 0xF021
  | .puts => 0xF022
  | .in_ => 0xF023
  | .putsp => 0xF024
  | .halt => 0xF025

/-- The word of an instruction matches its row under the row's mask. -/
def TableRow.Statement (i : Instr) : Prop := encode i &&& rowMask i = rowMatch i

/-- A mask picks from each part of a word. -/
theorem or_mask (a b m : Word) : (a ||| b) &&& m = (a &&& m) ||| (b &&& m) := by
  apply BitVec.eq_of_getLsbD_eq
  intro i _
  simp only [BitVec.getLsbD_and, BitVec.getLsbD_or, Bool.and_or_distrib_right]

/-- A field outside a mask leaves nothing under it. -/
theorem field_mask {n : Nat} (lo : Nat) (f : BitVec n) (m : Word) (h : atBit lo (BitVec.allOnes n) &&& m = 0) :
    atBit lo f &&& m = 0 := by
  apply BitVec.eq_of_getLsbD_eq
  intro i hi
  have hm := congrArg (fun w => w.getLsbD i) h
  simp only [BitVec.getLsbD_and, getLsbD_atBit, BitVec.getLsbD_allOnes] at hm ⊢
  by_cases hn : i - lo < n
  · by_cases hl : i < lo
    · simp [hl]
    · have hb : m.getLsbD i = false := by simpa [hi, hl, hn] using hm
      simp [hb]
  · rw [BitVec.getLsbD_of_ge f _ (by omega)]; simp


theorem TableRow.addReg (dr sr1 sr2 : Reg) : TableRow.Statement (.addReg dr sr1 sr2) := by
  change wordOpReg .add dr sr1 sr2 &&& 0xF020 = 0x1000
  rw [wordOpReg, or_mask, or_mask, or_mask, field_mask 9 dr.field _ (by decide), field_mask 6 sr1.field _ (by decide), field_mask 0 sr2.field _ (by decide)]
  decide

theorem TableRow.andReg (dr sr1 sr2 : Reg) : TableRow.Statement (.andReg dr sr1 sr2) := by
  change wordOpReg .and dr sr1 sr2 &&& 0xF020 = 0x5000
  rw [wordOpReg, or_mask, or_mask, or_mask, field_mask 9 dr.field _ (by decide), field_mask 6 sr1.field _ (by decide), field_mask 0 sr2.field _ (by decide)]
  decide

theorem TableRow.addImm (dr sr1 : Reg) (imm5 : BitVec 5) : TableRow.Statement (.addImm dr sr1 imm5) := by
  change wordOpImm .add dr sr1 imm5 &&& 0xF020 = 0x1020
  rw [wordOpImm, or_mask, or_mask, or_mask, or_mask, field_mask 9 dr.field _ (by decide), field_mask 6 sr1.field _ (by decide), field_mask 0 imm5 _ (by decide)]
  decide

theorem TableRow.andImm (dr sr1 : Reg) (imm5 : BitVec 5) : TableRow.Statement (.andImm dr sr1 imm5) := by
  change wordOpImm .and dr sr1 imm5 &&& 0xF020 = 0x5020
  rw [wordOpImm, or_mask, or_mask, or_mask, or_mask, field_mask 9 dr.field _ (by decide), field_mask 6 sr1.field _ (by decide), field_mask 0 imm5 _ (by decide)]
  decide

theorem TableRow.not (dr sr : Reg) : TableRow.Statement (.not dr sr) := by
  change wordNot dr sr &&& 0xF000 = 0x9000
  rw [wordNot, or_mask, or_mask, or_mask, field_mask 9 dr.field _ (by decide), field_mask 6 sr.field _ (by decide)]
  decide

theorem TableRow.br (n z p : Bool) (off9 : BitVec 9) : TableRow.Statement (.br n z p off9) := by
  change wordBr n z p off9 &&& 0xF000 = 0x0000
  rw [wordBr, or_mask, or_mask, or_mask, or_mask, field_mask 11 (BitVec.ofBool n) _ (by decide), field_mask 10 (BitVec.ofBool z) _ (by decide), field_mask 9 (BitVec.ofBool p) _ (by decide), field_mask 0 off9 _ (by decide)]
  decide

theorem TableRow.jmp (base : Reg) : TableRow.Statement (.jmp base) := by
  change wordJmp base &&& 0xF000 = 0xC000
  rw [wordJmp, or_mask, field_mask 6 base.field _ (by decide)]
  decide

theorem TableRow.jsr (off11 : BitVec 11) : TableRow.Statement (.jsr off11) := by
  change wordJsr off11 &&& 0xF800 = 0x4800
  rw [wordJsr, or_mask, or_mask, field_mask 0 off11 _ (by decide)]
  decide

theorem TableRow.jsrr (base : Reg) : TableRow.Statement (.jsrr base) := by
  change wordJsrr base &&& 0xF800 = 0x4000
  rw [wordJsrr, or_mask, field_mask 6 base.field _ (by decide)]
  decide

theorem TableRow.ld (dr : Reg) (off9 : BitVec 9) : TableRow.Statement (.ld dr off9) := by
  change wordPC9 .ld dr off9 &&& 0xF000 = 0x2000
  rw [wordPC9, or_mask, or_mask, field_mask 9 dr.field _ (by decide), field_mask 0 off9 _ (by decide)]
  decide

theorem TableRow.ldi (dr : Reg) (off9 : BitVec 9) : TableRow.Statement (.ldi dr off9) := by
  change wordPC9 .ldi dr off9 &&& 0xF000 = 0xA000
  rw [wordPC9, or_mask, or_mask, field_mask 9 dr.field _ (by decide), field_mask 0 off9 _ (by decide)]
  decide

theorem TableRow.lea (dr : Reg) (off9 : BitVec 9) : TableRow.Statement (.lea dr off9) := by
  change wordPC9 .lea dr off9 &&& 0xF000 = 0xE000
  rw [wordPC9, or_mask, or_mask, field_mask 9 dr.field _ (by decide), field_mask 0 off9 _ (by decide)]
  decide

theorem TableRow.st (sr : Reg) (off9 : BitVec 9) : TableRow.Statement (.st sr off9) := by
  change wordPC9 .st sr off9 &&& 0xF000 = 0x3000
  rw [wordPC9, or_mask, or_mask, field_mask 9 sr.field _ (by decide), field_mask 0 off9 _ (by decide)]
  decide

theorem TableRow.sti (sr : Reg) (off9 : BitVec 9) : TableRow.Statement (.sti sr off9) := by
  change wordPC9 .sti sr off9 &&& 0xF000 = 0xB000
  rw [wordPC9, or_mask, or_mask, field_mask 9 sr.field _ (by decide), field_mask 0 off9 _ (by decide)]
  decide

theorem TableRow.ldr (dr base : Reg) (off6 : BitVec 6) : TableRow.Statement (.ldr dr base off6) := by
  change wordBase6 .ldr dr base off6 &&& 0xF000 = 0x6000
  rw [wordBase6, or_mask, or_mask, or_mask, field_mask 9 dr.field _ (by decide), field_mask 6 base.field _ (by decide), field_mask 0 off6 _ (by decide)]
  decide

theorem TableRow.str (sr base : Reg) (off6 : BitVec 6) : TableRow.Statement (.str sr base off6) := by
  change wordBase6 .str sr base off6 &&& 0xF000 = 0x7000
  rw [wordBase6, or_mask, or_mask, or_mask, field_mask 9 sr.field _ (by decide), field_mask 6 base.field _ (by decide), field_mask 0 off6 _ (by decide)]
  decide

theorem TableRow.trap (v : BitVec 8) : TableRow.Statement (.trap v) := by
  change wordTrap v &&& 0xF000 = 0xF000
  rw [wordTrap, or_mask, field_mask 0 v _ (by decide)]
  decide

theorem TableRow.rti : TableRow.Statement .rti := by unfold TableRow.Statement; decide

theorem TableRow.res : TableRow.Statement .res := by unfold TableRow.Statement; decide

theorem TableRow.ret : TableRow.Statement .ret := by unfold TableRow.Statement; decide

theorem TableRow.nop (off9 : BitVec 9) : TableRow.Statement (.nop off9) := by
  change wordBr false false false off9 &&& 0xFE00 = 0x0000
  rw [wordBr, or_mask, or_mask, or_mask, or_mask, field_mask 0 off9 _ (by decide)]
  decide

theorem TableRow.getc : TableRow.Statement .getc := by unfold TableRow.Statement; decide

theorem TableRow.out : TableRow.Statement .out := by unfold TableRow.Statement; decide

theorem TableRow.puts : TableRow.Statement .puts := by unfold TableRow.Statement; decide

theorem TableRow.in_ : TableRow.Statement .in_ := by unfold TableRow.Statement; decide

theorem TableRow.putsp : TableRow.Statement .putsp := by unfold TableRow.Statement; decide

theorem TableRow.halt : TableRow.Statement .halt := by unfold TableRow.Statement; decide

end Sys2Proof.Laws
end

