-- ==== Sys2Proof/Laws/Routines.lean ====
section
/-! SUPPORT. What the trap routines can do, once each: the parts they share, the string loops, and the frame
that every one of them keeps (R0 of GETC and IN apart). -/
namespace Sys2Proof.Machine

/-- What a routine that answers next has kept: all but R0, the two keyboard cells, the run status and the
host's side; of that, input is taken from the front and output grows at the end. -/
structure RoutineFrame (s t : State) : Prop where
  regs : ∀ r, r ≠ .r0 → t.reg r = s.reg r
  pc : t.pc = s.pc
  cond : t.cond = s.cond
  status : t.status = s.status ∨ t.status = .fatal .ioError
  cells : ∀ a, a ≠ kbsr → a ≠ kbdr → t.cell a = s.cell a
  wf : s.mem.wf = true → t.mem.wf = true
  input : t.host.input <:+ s.host.input
  output : s.host.output <+: t.host.output

/-- The frame of writes alone: the host's side changes, its output grows. -/
structure WriteFrame (s t : State) : Prop where
  regs : t.regs = s.regs
  pc : t.pc = s.pc
  cond : t.cond = s.cond
  status : t.status = s.status
  mem : t.mem = s.mem
  input : t.host.input = s.host.input
  output : s.host.output <+: t.host.output

theorem putByte_frame (b : Byte) (s : State) : WriteFrame s (putByte b s).2 := by
  obtain ⟨hi, ⟨-, ho⟩ | ⟨-, ho⟩⟩ := hostPutByte_cases b s.host
  · exact ⟨rfl, rfl, rfl, rfl, rfl, hi, ⟨[b], ho.symm⟩⟩
  · exact ⟨rfl, rfl, rfl, rfl, rfl, hi, ⟨[], by rw [List.append_nil]; exact ho.symm⟩⟩

theorem putBytes_frame (bs : List Byte) (s : State) : WriteFrame s (putBytes bs s).2 := by
  obtain ⟨h, he, hi, ho, -⟩ := putBytes_host bs s
  rw [he]
  exact ⟨rfl, rfl, rfl, rfl, rfl, hi, ho⟩

/-- An accepted byte is the last of the output. -/
theorem putByte_ok {b : Byte} {s t : State} (h : putByte b s = (.ok, t)) : t.host.output = s.host.output ++ [b] := by
  have hf : (hostPutByte b s.host).1 = .ok := congrArg Prod.fst h
  have hs : t = s.setHost (hostPutByte b s.host).2 := (congrArg Prod.snd h).symm
  obtain ⟨-, ⟨-, ho⟩ | ⟨hc, -⟩⟩ := hostPutByte_cases b s.host
  · rw [hs]; exact ho
  · rw [hf] at hc; cases hc

/-- A refused byte leaves the output. -/
theorem putByte_fail {b : Byte} {s t : State} (h : putByte b s = (.fail, t)) : t.host.output = s.host.output := by
  have hf : (hostPutByte b s.host).1 = .fail := congrArg Prod.fst h
  have hs : t = s.setHost (hostPutByte b s.host).2 := (congrArg Prod.snd h).symm
  obtain ⟨-, ⟨hc, -⟩ | ⟨-, ho⟩⟩ := hostPutByte_cases b s.host
  · rw [hf] at hc; cases hc
  · rw [hs]; exact ho

/-- Several bytes accepted join the output in order. -/
theorem putBytes_ok {bs : List Byte} {s t : State} (h : putBytes bs s = (.ok, t)) :
    t.host.output = s.host.output ++ bs := by
  obtain ⟨k, he, -, -, ho⟩ := putBytes_host bs s
  rw [h] at he ho
  replace he : t = s.setHost k := he
  rw [he]
  exact ho rfl

theorem RoutineFrame.ofReadWrite {s t u : State} (h : ReadFrame s t) (k : WriteFrame t u) : RoutineFrame s u where
  regs r _ := congrArg (·.read r) (k.regs.trans h.regs)
  pc := k.pc.trans h.pc
  cond := k.cond.trans h.cond
  status := .inl (k.status.trans h.status)
  cells a ha hb := (congrArg (·.read a) k.mem).trans (h.cells a ha hb)
  wf hw := k.mem ▸ h.wf hw
  input := k.input ▸ h.input
  output := h.output ▸ k.output

theorem WriteFrame.refl (s : State) : WriteFrame s s := ⟨rfl, rfl, rfl, rfl, rfl, rfl, List.prefix_rfl⟩

theorem RoutineFrame.trans {s t u : State} (h : RoutineFrame s t) (k : RoutineFrame t u) (hs : t.status = s.status) :
    RoutineFrame s u where
  regs r hr := (k.regs r hr).trans (h.regs r hr)
  pc := k.pc.trans h.pc
  cond := k.cond.trans h.cond
  status := hs ▸ k.status
  cells a ha hb := (k.cells a ha hb).trans (h.cells a ha hb)
  wf hw := k.wf (h.wf hw)
  input := k.input.trans h.input
  output := h.output.trans k.output

/-- A fatal IoError after a frame keeps the frame. -/
theorem RoutineFrame.raise {s t : State} (h : RoutineFrame s t) : RoutineFrame s (raiseFatal .ioError t) :=
  ⟨h.regs, h.pc, h.cond, .inr rfl, h.cells, h.wf, h.input, h.output⟩

/-- What one turn of a string loop does once its cell is read: the frame, with the registers whole. -/
theorem stringTurn_frame {a c : Word} {bs : List Byte} {s s' : State} (h : memRead a s = .done c s') :
    RoutineFrame s (putBytes bs s').2 ∧ (putBytes bs s').2.regs = s.regs ∧ (putBytes bs s').2.status = s.status :=
  have hw := putBytes_frame bs s'
  have hr := memRead_done_frame h
  ⟨.ofReadWrite hr hw, hw.regs.trans hr.regs, hw.status.trans hr.status⟩

theorem putBytes_single (b : Byte) (s : State) : putBytes [b] s = putByte b s := by
  unfold putBytes
  split
  · next s' heq => exact heq.symm
  · next s' heq => exact heq.symm

/-- PUTS keeps the frame and every register, R0 among them. -/
theorem putsLoop_frame {n : Nat} {a : Word} {s t : State} (h : putsLoop n a s = .next t) :
    RoutineFrame s t ∧ t.regs = s.regs := by
  induction n generalizing a s with
  | zero => exact absurd h (by simp [putsLoop])
  | succ n ih =>
    obtain ⟨c, s', hm, hk⟩ | ⟨r, s', hm, rfl⟩ := Effect.andThen_next h
    · have hr := memRead_done_frame hm
      split at hk
      · cases hk
        exact ⟨.ofReadWrite hr (.refl _), hr.regs⟩
      · have ht := stringTurn_frame (bs := [lowByte c]) hm
        rw [putBytes_single] at ht
        split at hk
        · next s'' heq =>
          rw [heq] at ht
          obtain ⟨hf, hregs⟩ := ih hk
          exact ⟨ht.1.trans hf ht.2.2, hregs.trans ht.2.1⟩
        · next s'' heq =>
          rw [heq] at ht
          cases hk
          exact ⟨ht.1.raise, ht.2.1⟩
    · obtain ⟨-, rfl, -, hr⟩ := memRead_fatal_frame hm
      exact ⟨(RoutineFrame.ofReadWrite hr (.refl _)).raise, hr.regs⟩

/-- PUTSP keeps the frame and every register, R0 among them. -/
theorem putspLoop_frame {n : Nat} {a : Word} {s t : State} (h : putspLoop n a s = .next t) :
    RoutineFrame s t ∧ t.regs = s.regs := by
  induction n generalizing a s with
  | zero => exact absurd h (by simp [putspLoop])
  | succ n ih =>
    obtain ⟨c, s', hm, hk⟩ | ⟨r, s', hm, rfl⟩ := Effect.andThen_next h
    · have hr := memRead_done_frame hm
      split at hk
      · cases hk
        exact ⟨.ofReadWrite hr (.refl _), hr.regs⟩
      · have ht := stringTurn_frame (bs := packedBytes c) hm
        split at hk
        · next s'' heq =>
          rw [heq] at ht
          obtain ⟨hf, hregs⟩ := ih hk
          exact ⟨ht.1.trans hf ht.2.2, hregs.trans ht.2.1⟩
        · next s'' heq =>
          rw [heq] at ht
          cases hk
          exact ⟨ht.1.raise, ht.2.1⟩
    · obtain ⟨-, rfl, -, hr⟩ := memRead_fatal_frame hm
      exact ⟨(RoutineFrame.ofReadWrite hr (.refl _)).raise, hr.regs⟩

/-- The host's side and the status may change, the rest may not: the frame of OUT and of an echo. -/
theorem settleWrite_frame (b : Byte) (s : State) :
    RoutineFrame s (settleWrite (putByte b s)) ∧ (settleWrite (putByte b s)).regs = s.regs ∧
      (settleWrite (putByte b s)).mem = s.mem := by
  have hw := putByte_frame b s
  have hf : RoutineFrame s (putByte b s).2 := .ofReadWrite (.refl s) hw
  generalize putByte b s = p at hw hf
  obtain ⟨k, u⟩ := p
  cases k
  · exact ⟨hf, hw.regs, hw.mem⟩
  · exact ⟨hf.raise, hw.regs, hw.mem⟩

/-- The frame of taking an input byte. -/
theorem hostGetByte_frame {s : State} {a : GetAnswer} {h : HostLink} (hg : hostGetByte s.host = some (a, h)) :
    RoutineFrame s (s.setHost h) := by
  obtain ⟨hi, ho⟩ := hostGetByte_streams hg
  exact ⟨fun _ _ => rfl, rfl, rfl, .inl rfl, fun _ _ _ => rfl, id, hi, ho ▸ List.prefix_rfl⟩

/-- Writing R0 keeps the frame. -/
theorem RoutineFrame.setR0 {s t : State} (h : RoutineFrame s t) (v : Word) : RoutineFrame s (t.setReg .r0 v) :=
  ⟨fun r hr => (State.setReg_reg_other t v hr).trans (h.regs r hr), h.pc, h.cond, h.status, h.cells, h.wf, h.input,
    h.output⟩

theorem routineGetc_frame {s t : State} (h : routineGetc s = .next t) : RoutineFrame s t ∧ t.mem = s.mem := by
  unfold routineGetc at h
  split at h
  · next a k hg =>
    cases h
    have hf := hostGetByte_frame hg
    cases a with
    | byte b => exact ⟨hf.setR0 _, rfl⟩
    | fail => exact ⟨hf.raise, rfl⟩
  · exact absurd h (by simp)

theorem routineIn_frame {s t : State} (h : routineIn s = .next t) : RoutineFrame s t ∧ t.mem = s.mem := by
  unfold routineIn at h
  have hw := putBytes_frame Config.inPrompt s
  have hp : RoutineFrame s (putBytes Config.inPrompt s).2 := .ofReadWrite (.refl s) hw
  generalize putBytes Config.inPrompt s = p at h hw hp
  obtain ⟨k, u⟩ := p
  cases k
  · simp only at h
    split at h
    · next a g hg =>
      cases h
      have hf := hp.trans (hostGetByte_frame hg) hw.status
      cases a with
      | byte b =>
        obtain ⟨he, -, hm⟩ := settleWrite_frame b ((u.setHost g).setReg .r0 (zext8 b))
        exact ⟨(hf.setR0 (zext8 b)).trans he hw.status, hm.trans hw.mem⟩
      | fail => exact ⟨hf.raise, hw.mem⟩
    · exact absurd h (by simp)
  · cases h
    exact ⟨hp.raise, hw.mem⟩

/-- Writes whose answers are laid down as accepted: all bytes go out, and only the output and the laid down
answers change on the host's side. -/
theorem putBytes_laidDown (bs : List Byte) : ∀ (s : State) (ws : List WriteKind),
    s.host.writes = List.replicate bs.length .ok ++ ws →
    putBytes bs s = (.ok, s.setHost { s.host with writes := ws, output := s.host.output ++ bs }) := by
  induction bs with
  | nil =>
    intro s ws h
    simp only [List.length_nil, List.replicate_zero, List.nil_append] at h
    subst h
    simp [putBytes, State.setHost]
  | cons b rest ih =>
    intro s ws h
    simp only [List.length_cons, List.replicate_succ, List.cons_append] at h
    have hb : putByte b s =
        (.ok, s.setHost { s.host with writes := List.replicate rest.length .ok ++ ws, output := s.host.output ++ [b] }) := by
      simp [putByte, hostPutByte, HostLink.drawWrite, h]
    simp only [putBytes, hb]
    rw [ih _ ws (by simp)]
    simp [State.setHost]

end Sys2Proof.Machine
end

