-- ==== Sys2Proof/Tests/Slice0.lean ====
section
/-! SUPPORT. Tests: ill-formed terms, written-out words, one step an instruction (expected values from
spec/95_test_vectors.md, named by its vector numbers), and for each statement with hypotheses a state and
operands that meet them. -/
namespace Sys2Proof.Tests
open Sys2Proof Sys2Proof.Machine

/-! ### Well-formedness: what each check refuses -/

theorem test_wellFormed_refuses_br_without_flag : (Instr.br false false false 0x005).wellFormed = false := by decide
theorem test_wellFormed_refuses_jmp_r7 : (Instr.jmp .r7).wellFormed = false := by decide
theorem test_wellFormed_refuses_trap_getc : (Instr.trap 0x20).wellFormed = false := by decide
theorem test_wellFormed_refuses_trap_halt : (Instr.trap 0x25).wellFormed = false := by decide

/-- The well-formed neighbours of the four, and the ends of every range: DecodeInvertsEncode speaks of them. -/
theorem test_wellFormed_accepts_neighbours :
    (Instr.br false true false 0x100).wellFormed = true ∧ (Instr.br true true true 0x1FF).wellFormed = true ∧
    (Instr.jmp .r6).wellFormed = true ∧ (Instr.trap 0x1F).wellFormed = true ∧ (Instr.trap 0x26).wellFormed = true ∧
    (Instr.trap 0x00).wellFormed = true ∧ (Instr.trap 0xFF).wellFormed = true ∧ (Instr.nop 0x1FF).wellFormed = true := by
  decide

/-! ### Decoding: words of 95_test_vectors.md and of the formats of R63 -/

/-- 0001 000 001 0 00 010 and its immediate form 0001 000 001 1 11111; 0x105A has the unread bits 11 (O9). -/
theorem test_decode_add :
    decode 0x1042 = .addReg .r0 .r1 .r2 ∧ decode 0x105A = .addReg .r0 .r1 .r2 ∧ decode 0x107F = .addImm .r0 .r1 0x1F := by
  decide
/-- 0101 000 001 0 00 010 and 0101 000 000 1 00000. -/
theorem test_decode_and : decode 0x5042 = .andReg .r0 .r1 .r2 ∧ decode 0x5020 = .andImm .r0 .r0 0x00 := by decide
/-- 1001 001 010 111111, and with the unread bits 000000 (O20). -/
theorem test_decode_not : decode 0x92BF = .not .r1 .r2 ∧ decode 0x9280 = .not .r1 .r2 := by decide
/-- 0000 101 100000000 (B9), 0000 001 111111101 (P1), 0000 000 000000101 (B8). -/
theorem test_decode_br :
    decode 0x0B00 = .br true false true 0x100 ∧ decode 0x03FD = .br false false true 0x1FD ∧ decode 0x0005 = .nop 0x005 := by
  decide
/-- 1100 000 011 000000, the same with every unread bit 1 (J2), and R7. -/
theorem test_decode_jmp : decode 0xC0C0 = .jmp .r3 ∧ decode 0xCEFF = .jmp .r3 ∧ decode 0xC1C0 = .ret := by decide
/-- 0100 1 10000000000 (K4), 0100 0 00 010 000000 (K5), 0100 0 11 111 000000 (K7). -/
theorem test_decode_jsr :
    decode 0x4C00 = .jsr 0x400 ∧ decode 0x4080 = .jsrr .r2 ∧ decode 0x47C0 = .jsrr .r7 := by decide
/-- M1, S6, M13, M15. -/
theorem test_decode_loads :
    decode 0x2002 = .ld .r0 0x002 ∧ decode 0xA600 = .ldi .r3 0x000 ∧ decode 0x62BF = .ldr .r1 .r2 0x3F ∧
    decode 0xE406 = .lea .r2 0x006 := by decide
/-- M19, M22, M26. -/
theorem test_decode_stores :
    decode 0x3001 = .st .r0 0x001 ∧ decode 0xB801 = .sti .r4 0x001 ∧ decode 0x729F = .str .r1 .r2 0x1F := by decide
/-- T1 to T16. -/
theorem test_decode_trap :
    decode 0xF020 = .getc ∧ decode 0xF021 = .out ∧ decode 0xF022 = .puts ∧ decode 0xF023 = .in_ ∧
    decode 0xF024 = .putsp ∧ decode 0xF025 = .halt ∧ decode 0xFF25 = .halt ∧ decode 0xF026 = .trap 0x26 ∧
    decode 0xF01F = .trap 0x1F ∧ decode 0xF000 = .trap 0x00 := by decide
/-- X1 to X3. -/
theorem test_decode_reserved : decode 0x8000 = .rti ∧ decode 0x8FFF = .rti ∧ decode 0xD000 = .res := by decide
/-- The image is big-endian (S15): 0x12 first. A single byte is no word. -/
theorem test_decode_bytes :
    (decodeBytes [0x10, 0x42, 0xF0]).toOption = some (.addReg .r0 .r1 .r2, [0xF0]) ∧
    (decodeBytes [0x10]).toOption = none := by decide
/-- The words of the encoder, as the vectors write them. -/
theorem test_encode_vectors :
    encode (.not .r1 .r2) = 0x92BF ∧ encode (.addImm .r0 .r1 0x1F) = 0x107F ∧ encode (.br true false true 0x100) = 0x0B00 ∧
    encode (.jsr 0x400) = 0x4C00 ∧ encode (.str .r1 .r2 0x1F) = 0x729F ∧ encode .ret = 0xC1C0 ∧ encode .halt = 0xF025 := by
  decide

/-! ### Helpers -/

/-- A machine after reset with PC = a and the word w there. -/
def machine (a w : Word) : State := memWrite a w (State.reset.setPc a)

/-- The host that answers as laid down, with the given input. -/
def host (input : List Byte) (polls : List (Option PollKind)) (reads : List (Option ReadKind)) (writes : List WriteKind) :
    HostLink :=
  { HostLink.reset with input := input, polls := polls, reads := reads, writes := writes }

/-- The host with one answer to a poll and the byte 0x61 to give. -/
def polled (k : Option PollKind) : HostLink := host [0x61] [k] [] []

/-- The host with one answer to a byte read and the byte 0x41 to give. -/
def asked (k : Option ReadKind) : HostLink := host [0x41] [] [k] [.ok]

/-- The host with answers to byte writes. -/
def taking (ws : List WriteKind) : HostLink := host [] [] [] ws

/-- The next state, if there is one. -/
def nextOf (o : Host.Outcome State Fault Refusal) : Option State :=
  match o with
  | .next s => some s
  | .fault _ => none
  | .refused _ => none

/-- One step, looked at through f. -/
def look {α : Type} (s : State) (f : State → α) : Option α := (nextOf (step s)).map f

/-! ### One step an instruction -/

/-- S3, O1. -/
theorem test_add :
    look ((machine 0x3000 0x107F).setReg .r1 0x0005) (fun t => (t.reg .r0, t.cond, t.pc)) = some (0x0004, .pos, 0x3001) ∧
    look (((machine 0x3000 0x1042).setReg .r1 0x7FFF).setReg .r2 0x0001) (fun t => (t.reg .r0, t.cond)) =
      some (0x8000, .neg) := by decide
/-- O14, O10. -/
theorem test_and :
    look ((machine 0x3000 0x5070).setReg .r1 0xABCD) (fun t => (t.reg .r0, t.cond)) = some (0xABC0, .neg) ∧
    look (((machine 0x3000 0x5042).setReg .r1 0x00FF).setReg .r2 0x0F0F) (fun t => (t.reg .r0, t.cond)) =
      some (0x000F, .pos) := by decide
/-- O17, O20. -/
theorem test_not :
    look ((machine 0x3000 0x92BF).setReg .r2 0xFFFF) (fun t => (t.reg .r1, t.cond)) = some (0x0000, .zero) ∧
    look ((machine 0x3000 0x9280).setReg .r2 0x5555) (fun t => (t.reg .r1, t.cond)) = some (0xAAAA, .neg) := by decide
/-- B9, B2. -/
theorem test_br :
    look ((machine 0x3000 0x0B00).setCond .neg) (fun t => (t.pc, t.cond)) = some (0x2F01, .neg) ∧
    look ((machine 0x3000 0x0805).setCond .pos) (fun t => t.pc) = some 0x3001 := by decide
/-- B7: nothing branches after reset. B8: NZP = 000. -/
theorem test_br_never :
    look (machine 0x3000 0x0FFF) (fun t => t.pc) = some 0x3001 ∧
    look ((machine 0x3000 0x0005).setCond .zero) (fun t => t.pc) = some 0x3001 := by decide
/-- J2, J3. -/
theorem test_jmp_ret :
    look ((machine 0x3000 0xCEFF).setReg .r3 0x1234) (fun t => (t.pc, t.reg .r3)) = some (0x1234, 0x1234) ∧
    look ((machine 0x3000 0xC1C0).setReg .r7 0x3005) (fun t => t.pc) = some 0x3005 := by decide
/-- K4, K3. -/
theorem test_jsr :
    look (machine 0x3000 0x4C00) (fun t => (t.reg .r7, t.pc)) = some (0x3001, 0x2C01) ∧
    look (machine 0x3000 0x4BFF) (fun t => (t.reg .r7, t.pc)) = some (0x3001, 0x3400) := by decide
/-- K5, K6. -/
theorem test_jsrr :
    look ((machine 0x3000 0x4080).setReg .r2 0x5000) (fun t => (t.reg .r7, t.pc)) = some (0x3001, 0x5000) ∧
    look ((machine 0x3000 0x41C0).setReg .r7 0x5000) (fun t => (t.reg .r7, t.pc)) = some (0x3001, 0x3001) := by decide
/-- M2, M3. -/
theorem test_ld :
    look (machine 0x3000 0x21FF) (fun t => (t.reg .r0, t.cond)) = some (0x21FF, .pos) ∧
    look ((machine 0xFDFF 0x2000).setHost (polled (some .present)))
      (fun t => (t.reg .r0, t.cond, t.cell 0xFE00, t.cell 0xFE02)) = some (0x8000, .neg, 0x8000, 0x0061) := by decide
/-- S6, M10: the pointer read polls, so the word read is M[0x0000]. -/
theorem test_ldi :
    look (memWrite 0x3001 0x4000 (memWrite 0x4000 0x1234 (machine 0x3000 0xA600))) (fun t => (t.reg .r3, t.cond)) =
      some (0x1234, .pos) ∧
    look (memWrite 0x0000 0x0007 (memWrite 0xFE00 0x4000 ((machine 0xFDFF 0xA600).setHost (polled (some .absent)))))
      (fun t => (t.reg .r3, t.host.polls)) = some (0x0007, []) := by decide
/-- M12, M11. -/
theorem test_ldr :
    look (memWrite 0x0000 0x8000 ((machine 0x3000 0x6281).setReg .r2 0xFFFF)) (fun t => (t.reg .r1, t.cond)) =
      some (0x8000, .neg) ∧
    look (memWrite 0x4000 0x7FFF ((machine 0x3000 0x6480).setReg .r2 0x4000)) (fun t => (t.reg .r2, t.cond)) =
      some (0x7FFF, .pos) := by decide
/-- M16, M18: no poll, though the address is 0xFE00. -/
theorem test_lea :
    look (machine 0x0000 0xE1FF) (fun t => (t.reg .r0, t.cond)) = some (0x0000, .zero) ∧
    look ((machine 0xFDFF 0xE000).setHost (polled none)) (fun t => (t.reg .r0, t.cond, t.host.polls)) =
      some (0xFE00, .neg, [none]) := by decide
/-- M19, M20: a store to 0xFE00 does not poll. -/
theorem test_st :
    look (((machine 0x3000 0x3001).setReg .r0 0xBEEF).setCond .zero) (fun t => (t.cell 0x3002, t.cond)) =
      some (0xBEEF, .zero) ∧
    look (((machine 0xFDFF 0x3000).setReg .r0 0x1234).setHost (polled none)) (fun t => (t.cell 0xFE00, t.host.polls)) =
      some (0x1234, [none]) := by decide
/-- M22, M23. -/
theorem test_sti :
    look (memWrite 0x3002 0x5000 ((machine 0x3000 0xB801).setReg .r4 0x00AA)) (fun t => t.cell 0x5000) = some 0x00AA ∧
    look (((machine 0xFDFE 0xB801).setReg .r4 0x00AA).setHost (polled (some .absent)))
      (fun t => (t.cell 0x0000, t.cell 0xFE00)) = some (0x00AA, 0x0000) := by decide
/-- M26, M25. -/
theorem test_str :
    look (((machine 0x3000 0x729F).setReg .r2 0xFFF0).setReg .r1 0x0001) (fun t => t.cell 0x000F) = some 0x0001 ∧
    look ((machine 0x3000 0x7480).setReg .r2 0x4000) (fun t => t.cell 0x4000) = some 0x4000 := by decide
/-- T14, T15. -/
theorem test_trap_unknown :
    look (machine 0x3000 0xF026) (fun t => (t.status, t.pc)) = some (.fatal (.unknownTrapVector 0x26), 0x3001) ∧
    look (machine 0x3000 0xF01F) (fun t => t.status) = some (.fatal (.unknownTrapVector 0x1F)) := by decide
/-- X2, X3. -/
theorem test_reserved :
    look (machine 0x3000 0x8FFF) (fun t => (t.status, t.pc)) = some (.fatal (.unsupportedOpcode 0x8), 0x3001) ∧
    look (machine 0x3000 0xD000) (fun t => (t.status, t.pc)) = some (.fatal (.unsupportedOpcode 0xD), 0x3001) := by decide
/-- T1, T3. -/
theorem test_getc :
    look ((((machine 0x3000 0xF020).setHost (asked (some .byte))).setCond .neg).setReg .r7 0x1111)
      (fun t => (t.reg .r0, t.cond, t.reg .r7, t.host.output)) = some (0x0041, .neg, 0x1111, []) ∧
    look ((machine 0x3000 0xF020).setHost (asked (some .fail))) (fun t => (t.status, t.reg .r0, t.pc)) =
      some (.fatal .ioError, 0x0000, 0x3001) := by decide
/-- T4; R148: a failed write is fatal. -/
theorem test_out :
    look (((machine 0x3000 0xF021).setHost (taking [.ok])).setReg .r0 0x1241) (fun t => (t.host.output, t.reg .r0)) =
      some ([0x41], 0x1241) ∧
    look (((machine 0x3000 0xF021).setHost (taking [.fail])).setReg .r0 0x1241) (fun t => (t.host.output, t.status)) =
      some ([], .fatal .ioError) := by decide
/-- T7, T8. -/
theorem test_puts :
    look (memWrite 0x4000 0x0100 (memWrite 0x4001 0x0041
      (((machine 0x3000 0xF022).setHost (taking [.ok, .ok])).setReg .r0 0x4000))) (fun t => t.host.output) =
      some [0x00, 0x41] ∧
    look (memWrite 0xFFFF 0x0041 (((machine 0x3000 0xF022).setHost (taking [.ok])).setReg .r0 0xFFFF))
      (fun t => (t.host.output, t.reg .r0)) = some ([0x41], 0xFFFF) := by decide
/-- T11, T10. -/
theorem test_putsp :
    look (memWrite 0x4000 0x6948 (memWrite 0x4001 0x0021
      (((machine 0x3000 0xF024).setHost (taking [.ok, .ok, .ok])).setReg .r0 0x4000))) (fun t => t.host.output) =
      some [0x48, 0x69, 0x21] ∧
    look (memWrite 0x4000 0x0048 (memWrite 0x4001 0x6900
      (((machine 0x3000 0xF024).setHost (taking [.ok])).setReg .r0 0x4000))) (fun t => t.host.output) =
      some [0x48] := by decide
/-- T12, T13. -/
theorem test_halt :
    look (machine 0x3006 0xF025) (fun t => (t.status, t.pc, t.host.output)) = some (.halted, 0x3007, []) ∧
    look (machine 0x3000 0xFF25) (fun t => t.status) = some .halted := by decide
/-- X4, X5. -/
theorem test_fetch_edges :
    look (machine 0xFFFF 0xF025) (fun t => (t.status, t.pc)) = some (.fatal .pcOutOfRange, 0xFFFF) ∧
    look ((machine 0xFE00 0x1042).setHost (polled (some .absent))) (fun t => (t.status, t.pc, t.cell 0xFE00)) =
      some (.running, 0xFE01, 0x0000) := by decide
/-- X6, X7. -/
theorem test_fetch_polls :
    look ((machine 0xFE00 0x1042).setHost (polled (some .present))) (fun t => (t.status, t.pc, t.cell 0xFE02)) =
      some (.fatal (.unsupportedOpcode 0x8), 0xFE01, 0x0061) ∧
    look ((machine 0xFE00 0x1042).setHost (polled (some .fail))) (fun t => (t.status, t.pc)) =
      some (.fatal .ioError, 0xFE00) := by decide
/-- S15. -/
theorem test_boot :
    (nextOf (boot [0x30, 0x00, 0x12, 0x34])).map (fun t => (t.cell 0x3000, t.pc)) = some (0x1234, 0x3000) ∧
    nextOf (boot [0x30, 0x00, 0x12]) = none := by decide

/-- The machine of IN with a host that takes the prompt, then gives the answers and takes the writes named. -/
def prompted (k : Option ReadKind) (ws : List WriteKind) : State :=
  State.reset.setHost (host [0x78] [] [k] (List.replicate Config.inPrompt.length .ok ++ ws))

theorem test_in_prompt (k : Option ReadKind) (ws : List WriteKind) :
    putBytes Config.inPrompt (prompted k ws) =
      (.ok, State.reset.setHost { host [0x78] [] [k] ws with output := Config.inPrompt }) :=
  putBytes_laidDown _ _ ws rfl

/-- T9, for every prompt. -/
theorem test_in : (nextOf (exec .in_ (prompted (some .byte) [.ok]))).map (fun t => (t.reg .r0, t.cond, t.host.output)) =
    some (0x0078, .none, Config.inPrompt ++ [0x78]) := by
  simp only [exec, execIn, routineIn, test_in_prompt]
  rfl
/-- D17: R0 keeps the byte when the echo fails. -/
theorem test_in_echo_fails : (nextOf (exec .in_ (prompted (some .byte) [.fail]))).map (fun t => (t.reg .r0, t.status)) =
    some (0x0078, .fatal .ioError) := by
  simp only [exec, execIn, routineIn, test_in_prompt]
  rfl

/-! ### For each statement with hypotheses, states and operands that meet them -/

/-- TableRowsDecodeByMatchAndMask: a word for each clause, the unread bits 1. -/
theorem test_meets_table_rows :
    0x105A#16 &&& 0xF020 = 0x1000 ∧ 0x107F#16 &&& 0xF020 = 0x1020 ∧ 0x505A#16 &&& 0xF020 = 0x5000 ∧
    0x507F#16 &&& 0xF020 = 0x5020 ∧ 0x92BF#16 &&& 0xF000 = 0x9000 ∧
    (0x0200#16 &&& 0xF000 = 0x0000 ∧ 0x0200#16 &&& 0x0E00 ≠ 0) ∧
    (0xCFBF#16 &&& 0xF000 = 0xC000 ∧ 0xCFBF#16 &&& 0x01C0 ≠ 0x01C0) ∧ 0x4FFF#16 &&& 0xF800 = 0x4800 ∧
    0x47FF#16 &&& 0xF800 = 0x4000 ∧ 0x2FFF#16 &&& 0xF000 = 0x2000 ∧ 0xAFFF#16 &&& 0xF000 = 0xA000 ∧
    0x6FFF#16 &&& 0xF000 = 0x6000 ∧ 0xEFFF#16 &&& 0xF000 = 0xE000 ∧ 0x3FFF#16 &&& 0xF000 = 0x3000 ∧
    0xBFFF#16 &&& 0xF000 = 0xB000 ∧ 0x7FFF#16 &&& 0xF000 = 0x7000 ∧
    (0xFF1F#16 &&& 0xF000 = 0xF000 ∧ (0xFF1F#16 &&& 0x00FF).toNat < 0x20) ∧
    (0xF026#16 &&& 0xF000 = 0xF000 ∧ 0x25 < (0xF026#16 &&& 0x00FF).toNat) ∧
    0x8FFF#16 &&& 0xF000 = 0x8000 ∧ 0xDFFF#16 &&& 0xF000 = 0xD000 ∧ 0xCFFF#16 &&& 0xF1C0 = 0xC1C0 ∧
    0x01FF#16 &&& 0xFE00 = 0x0000 ∧ 0xFF20#16 &&& 0xF0FF = 0xF020 ∧ 0xFF21#16 &&& 0xF0FF = 0xF021 ∧
    0xFF22#16 &&& 0xF0FF = 0xF022 ∧ 0xFF23#16 &&& 0xF0FF = 0xF023 ∧ 0xFF24#16 &&& 0xF0FF = 0xF024 ∧
    0xFF25#16 &&& 0xF0FF = 0xF025 := by decide

/-- SignExtensionKeepsSignedValue: both signs, at the ends of the widths; the values are 95_test_vectors.md 2.1. -/
theorem test_meets_sign_extension :
    (0x10#5).getLsbD 4 = true ∧ (0x0F#5).getLsbD 4 = false ∧ (0x8000#16).getLsbD 15 = true ∧ (0x0#1).getLsbD 0 = false ∧
    sext 0x10#5 = 0xFFF0 ∧ sext 0x0F#5 = 0x000F ∧ sext 0x20#6 = 0xFFE0 ∧ sext 0x100#9 = 0xFF00 ∧
    sext 0x0FF#9 = 0x00FF ∧ sext 0x400#11 = 0xFC00 ∧ sext 0x3FF#11 = 0x03FF := by decide

/-- SetccGivesTheFlagOfTheSignedValue: its three clauses; the flags are 95_test_vectors.md 2.2. -/
theorem test_meets_setcc :
    condOf 0x0000 = .zero ∧ (0x8000#16 ≠ 0x0000 ∧ (0x8000#16).getLsbD 15 = true ∧ condOf 0x8000 = .neg) ∧
    (0x7FFF#16 ≠ 0x0000 ∧ (0x7FFF#16).getLsbD 15 = false ∧ condOf 0x7FFF = .pos) := by decide

/-- OnlyListedInstructionsUpdateFlags, OnlyTheNamedRegisterIsWritten, OnlyTransfersWritePc,
MemoryChangesByStoresAndPollsAlone: instructions of every kind that answer a next state. -/
theorem test_meets_exec_next :
    (∃ t, exec (.st .r0 0) State.reset = .next t ∧ updatesFlags (.st .r0 0) = false ∧ transfersControl (.st .r0 0) = false) ∧
    (∃ t, exec (.lea .r0 0) State.reset = .next t ∧ updatesFlags (.lea .r0 0) = true ∧ t.status = .running ∧
      accessShape (.lea .r0 0) = .untouched) ∧
    (∃ t, exec (.ld .r0 0) State.reset = .next t ∧ accessShape (.ld .r0 0) = .reading) ∧
    (∃ t, exec (.jsrr .r7) State.reset = .next t ∧ (destination (.jsrr .r7)).toList = [.r7]) :=
  ⟨⟨_, rfl, rfl, rfl⟩, ⟨_, rfl, rfl, rfl, rfl⟩, ⟨_, rfl, rfl⟩, ⟨_, rfl, rfl⟩⟩

/-- NoFlagIsNeverProducedAgain. -/
theorem test_meets_flag_set : ((machine 0x3000 0x5020).setCond .neg).cond ≠ .none ∧
    ∃ t, step ((machine 0x3000 0x5020).setCond .neg) = .next t := ⟨by decide, _, rfl⟩

/-- ReturnGoesBehindTheCall. -/
theorem test_meets_return : ∃ t, exec (.jsr 0x002) State.reset = .next t ∧ (t.setPc 0x3003).reg .r7 = t.reg .r7 :=
  ⟨_, rfl, rfl⟩

/-- ReadsPollAtTheStatusCellAlone, EachInputByteIsDeliveredOnce (polls): each answer. -/
theorem test_meets_poll_answers :
    (0xFDFF#16 ≠ 0xFE00 ∧ 0xFE01#16 ≠ 0xFE00) ∧
    hostPoll (polled (some .present)) = some (.present 0x61, host [] [] [] []) ∧
    hostPoll (polled (some .absent)) = some (.absent, host [0x61] [] [] []) ∧
    hostPoll (polled (some .fail)) = some (.fail, host [0x61] [] [] []) ∧ hostPoll (polled none) = none := by decide

/-- LoadsWriteTheWordRead, LdiLoadsThroughThePointer, StiStoresThroughThePointer,
StepRunsTheDecodedInstruction: each end of a read of 0xFE00, and a read elsewhere. -/
theorem test_meets_reads :
    0x3000#16 + sext 0#9 ≠ kbsr ∧
    (∃ v t, memRead kbsr (State.reset.setHost (polled (some .present))) = .done v t) ∧
    (∃ r t, memRead kbsr (State.reset.setHost (polled (some .fail))) = .fatal r t) ∧
    memRead kbsr (State.reset.setHost (polled none)) = .stuck .hostSilent ∧
    pcRelative 0#9 (State.reset.setPc 0xFE00) = kbsr ∧ pcRelative 0#9 State.reset ≠ kbsr :=
  ⟨by decide, ⟨_, _, rfl⟩, ⟨_, _, rfl⟩, rfl, by decide, by decide⟩

/-- StoreThenLoadReturnsTheWord (S5). -/
theorem test_meets_store_then_load :
    (∃ t, exec (.st .r0 0x005) (State.reset.setReg .r0 0xBEEF) = .next t) ∧ 0x3000#16 + sext 0x005#9 ≠ 0xFE00 :=
  ⟨⟨_, rfl⟩, by decide⟩

/-- KeyboardLoadsReportThePoll: each of its forms (the answers are `test_meets_poll_answers`). -/
theorem test_meets_keyboard_loads :
    (State.reset.setPc 0xFE00).pc + sext 0#9 = 0xFE00 ∧
    (State.reset.setReg .r2 0xFE01).reg .r2 + sext 0x3F#6 = 0xFE00 ∧
    ((memWrite 0x3001 0xFE00 State.reset).setPc 0x3001).pc + sext 0#9 ≠ 0xFE00 ∧
    (memWrite 0x3001 0xFE00 State.reset).cell (0x3001#16 + sext 0#9) = 0xFE00 := by decide

/-- StoredInstructionIsFetchedNext: both forms (M27). -/
theorem test_meets_stored_instruction :
    State.reset.status = .running ∧ State.reset.pc ≠ 0xFE00 ∧ State.reset.pc ≠ 0xFFFF ∧
    (pcRelative 0#9 State.reset = State.reset.pc ∧ ∃ t, exec (.st .r0 0) State.reset = .next t) ∧
    (baseOffset .r2 0#6 (State.reset.setReg .r2 0x3000) = (State.reset.setReg .r2 0x3000).pc ∧
      ∃ t, exec (.str .r0 .r2 0) (State.reset.setReg .r2 0x3000) = .next t) :=
  ⟨rfl, by decide, by decide, ⟨by decide, _, rfl⟩, ⟨by decide, _, rfl⟩⟩

/-- TrapSelectsTheRoutineOfItsVector: the vectors at the ends of the unknown ranges. -/
theorem test_meets_unknown_vectors :
    (0x1F#8).toNat < 0x20 ∧ 0x25 < (0x26#8).toNat ∧ (0x00#8).toNat < 0x20 ∧ 0x25 < (0xFF#8).toNat := by decide

/-- TrapSavesNothingAndKeepsFlags. -/
theorem test_meets_trap_next : isTrapWord .halt = true ∧ (∃ t, exec .halt State.reset = .next t) ∧
    isTrapWord (.trap 0x26) = true ∧ ∃ t, exec (.trap 0x26) State.reset = .next t :=
  ⟨rfl, ⟨_, rfl⟩, rfl, _, rfl⟩

/-- GetcReadsOneByte, EachInputByteIsDeliveredOnce (reads): each answer. -/
theorem test_meets_read_answers :
    hostGetByte (asked (some .byte)) = some (.byte 0x41, host [] [] [] [.ok]) ∧
    hostGetByte (asked (some .fail)) = some (.fail, host [0x41] [] [] [.ok]) ∧ hostGetByte (asked none) = none := by decide

/-- OutEmitsTheLowByteOfR0: both answers. -/
theorem test_meets_write_answers :
    (hostPutByte 0x41 (taking [.ok])).1 = .ok ∧ (hostPutByte 0x41 (taking [.fail])).1 = .fail := by decide

/-- InPromptsReadsAndEchoes: the clauses after an accepted prompt. -/
theorem test_meets_in :
    (∃ s' b h, putBytes Config.inPrompt (prompted (some .byte) [.ok]) = (.ok, s') ∧
      hostGetByte s'.host = some (.byte b, h) ∧ (hostPutByte b h).1 = .ok) ∧
    (∃ s' b h, putBytes Config.inPrompt (prompted (some .byte) [.fail]) = (.ok, s') ∧
      hostGetByte s'.host = some (.byte b, h) ∧ (hostPutByte b h).1 = .fail) ∧
    (∃ s' h, putBytes Config.inPrompt (prompted (some .fail) []) = (.ok, s') ∧
      hostGetByte s'.host = some (.fail, h)) ∧
    (∃ s', putBytes Config.inPrompt (prompted none []) = (.ok, s') ∧ hostGetByte s'.host = none) :=
  ⟨⟨_, 0x78, _, test_in_prompt _ _, rfl, rfl⟩, ⟨_, 0x78, _, test_in_prompt _ _, rfl, rfl⟩,
    ⟨_, _, test_in_prompt _ _, rfl⟩, ⟨_, test_in_prompt _ _, rfl⟩⟩

/-- InPromptsReadsAndEchoes: a failed prompt, whatever the prompt is, if it has a byte at all (D13). -/
theorem test_meets_in_prompt_fails (h : Config.inPrompt ≠ []) :
    ∃ s', putBytes Config.inPrompt (State.reset.setHost (taking [.fail])) = (.fail, s') := by
  cases hp : Config.inPrompt with
  | nil => exact absurd hp h
  | cons b rest => exact ⟨_, rfl⟩

/-- PutsRunsItsLoop: an empty string, and PUTS on it. -/
theorem test_meets_puts_run :
    PutsRun 0 (State.reset.reg .r0) State.reset State.reset ∧ 0 < 65536 * (State.reset.host.polls.length + 2) ∧
    ∃ t, exec .puts State.reset = .next t :=
  ⟨.terminator rfl, by decide, _, rfl⟩

/-- PutspIsItsLoop: both sides hold of an empty string. -/
theorem test_meets_putsp_run :
    PutspRun 0 (State.reset.reg .r0) State.reset State.reset ∧ ∃ t, exec .putsp State.reset = .next t :=
  ⟨.terminator rfl (by decide), _, rfl⟩

/-- The string of S8 and T7's terminator rule, and the packed string of S9, with a host that takes two bytes. -/
def stringed : State :=
  memWrite 0x4000 0x0048 (memWrite 0x4001 0x0069 ((State.reset.setHost (taking [.ok, .ok])).setReg .r0 0x4000))

def packed : State := memWrite 0x4000 0x6948 ((State.reset.setHost (taking [.ok, .ok])).setReg .r0 0x4000)

/-- PutsEmitsTheString, with two cells before the terminator (S8). -/
theorem test_meets_puts_string :
    (∀ i, i < 2 → stringed.reg .r0 + BitVec.ofNat 16 i ≠ 0xFE00 ∧
      stringed.cell (stringed.reg .r0 + BitVec.ofNat 16 i) ≠ 0x0000) ∧
    stringed.reg .r0 + BitVec.ofNat 16 2 ≠ 0xFE00 ∧ stringed.cell (stringed.reg .r0 + BitVec.ofNat 16 2) = 0x0000 ∧
    stringed.host.acceptsNext 2 = true := by decide

/-- PutspEmitsThePackedString, with one cell of two bytes (S9). -/
theorem test_meets_putsp_string :
    (∀ i, i < 1 → packed.reg .r0 + BitVec.ofNat 16 i ≠ 0xFE00 ∧
      (packed.cell (packed.reg .r0 + BitVec.ofNat 16 i)).setWidth 8 ≠ 0x00#8) ∧
    packed.reg .r0 + BitVec.ofNat 16 1 ≠ 0xFE00 ∧
    (packed.cell (packed.reg .r0 + BitVec.ofNat 16 1)).setWidth 8 = 0x00#8 ∧
    packed.host.acceptsNext ((cellsFrom packed (packed.reg .r0) 1).flatMap emittedPair).length = true := by decide

/-- EveryStopHasItsCause, its IoError clause: the instructions next to the ones it names. -/
theorem test_mayFailIo_edges :
    mayFailIo (.trap 0x1F) = false ∧ mayFailIo (.trap 0x20) = true ∧ mayFailIo (.trap 0x24) = true ∧
    mayFailIo (.trap 0x25) = false ∧ mayFailIo (.sti .r0 0) = true ∧ mayFailIo (.st .r0 0) = false := by decide

/-- EveryStopHasItsCause: a next state for each cause. -/
theorem test_meets_stops :
    State.reset.status = .running ∧
    (nextOf (exec .halt State.reset)).map State.status = some .halted ∧
    (nextOf (exec .rti State.reset)).map State.status = some (.fatal (.unsupportedOpcode 0x8)) ∧
    (nextOf (exec (.trap 0xFF) State.reset)).map State.status = some (.fatal (.unknownTrapVector 0xFF)) ∧
    (nextOf (exec .getc (State.reset.setHost (asked (some .fail))))).map State.status = some (.fatal .ioError) := by decide

/-- StepRunsTheDecodedInstruction, PlacedWordRunsNext, StoppedEngineRunsNoCycle: the status and PC of each
clause; the reads at 0xFE00 are `test_meets_reads`. -/
theorem test_meets_step :
    (State.reset.status = .running ∧ State.reset.pc ≠ 0xFE00 ∧ State.reset.pc ≠ 0xFFFF) ∧
    ((State.reset.setPc 0xFFFF).status = .running ∧ (State.reset.setPc 0xFFFF).pc = 0xFFFF) ∧
    (∃ w t, memRead 0xFE00 ((State.reset.setPc 0xFE00).setHost (polled (some .absent))) = .done w t) ∧
    (State.reset.setStatus .halted).status ≠ .running ∧
    (State.reset.setStatus (.fatal .ioError)).status = .fatal .ioError :=
  ⟨⟨rfl, by decide, by decide⟩, ⟨rfl, rfl⟩, ⟨_, _, rfl⟩, by decide, rfl⟩

/-- BootPlacesTheImage, BootRefusesBadImages: images that end at and pass the last cell, and a half word. -/
theorem test_meets_boot :
    (0xFFFF#16).toNat + [0x1234#16].length ≤ 65536 ∧ 0 < [0x1234#16].length ∧ (0xFFFE#16).toNat < (0xFFFF#16).toNat ∧
    (0x3000#16).toNat + [0x1234#16].length ≤ (0x3001#16).toNat ∧
    65536 < (0xFFFF#16).toNat + [0x1234#16, 0x5678#16].length ∧ [(0x30 : Byte)].length % 2 = 1 := by decide

/-- CanonicalMemoryIsWhatItReads: one memory reached by two ways. -/
theorem test_meets_canonical :
    Memory.wf (Memory.write (Memory.write [] 0x4000 0x0001) 0x3000 0x0002) = true ∧
    Memory.write (Memory.write [] 0x4000 0x0001) 0x3000 0x0002 =
      Memory.write (Memory.write (Memory.write [] 0x3000 0x0002) 0x3FFF 0x0000) 0x4000 0x0001 := by decide

/-- OutputOnlyGrows, InputIsTakenInOrder, StepKeepsTheInvariant, EveryReachableStateMeetsTheInvariant. -/
theorem test_meets_invariant :
    (machine 0x3000 0x1042).inv = true ∧ (∃ t, step (machine 0x3000 0x1042) = .next t) ∧
    ∃ s t, boot [0x30, 0x00, 0x10, 0x42] = .next s ∧ Reaches (s.setHost (polled none)) t ∧
      step (s.setHost (polled none)) = .next t :=
  ⟨by decide, ⟨_, rfl⟩, ⟨_, _, rfl, .tail .refl rfl, rfl⟩⟩

end Sys2Proof.Tests
end

section
/-! PROOFS. The condition flags (10_state.md R25, R26): the flag `setcc` gives, what `setcc` leaves alone,
and which instructions reach it. -/
namespace Sys2Proof.Machine

/-! ### The flag of a value (R25) -/

theorem condOf_zero : condOf 0x0000 = .zero := rfl

theorem condOf_neg {v : Word} (h0 : v ≠ 0x0000) (h15 : v.getLsbD 15 = true) : condOf v = .neg := by
  rw [condOf, if_neg h0, if_pos h15]

theorem condOf_pos {v : Word} (h0 : v ≠ 0x0000) (h15 : v.getLsbD 15 = false) : condOf v = .pos := by
  rw [condOf, if_neg h0, if_neg (Bool.eq_false_iff.mp h15)]

/-- Bit 15 is the sign of a word read as a signed number (R8). -/
theorem getLsbD_15_eq_toInt_neg (v : Word) : v.getLsbD 15 = decide (v.toInt < 0) := by
  rw [← BitVec.msb_eq_toInt]
  rfl

/-- The flag `setcc` picks by bit 15 is the flag of the signed value. -/
theorem condOf_flagOf (v : Word) : FlagOf v (condOf v) := by
  refine ⟨fun hneg => ?_, fun h0 => h0 ▸ condOf_zero, fun hpos => ?_⟩
  · have h0 : v ≠ 0x0000 := by rintro rfl; exact absurd hneg (by decide)
    exact condOf_neg h0 ((getLsbD_15_eq_toInt_neg v).trans (decide_eq_true hneg))
  · have h0 : v ≠ 0x0000 := by rintro rfl; exact absurd hpos (by decide)
    exact condOf_pos h0 ((getLsbD_15_eq_toInt_neg v).trans (decide_eq_false (by omega)))

/-! ### What setcc leaves alone -/

@[simp] theorem setcc_reg (v : Word) (s : State) (q : Reg) : (setcc v s).reg q = s.reg q := rfl
@[simp] theorem setcc_cell (v : Word) (s : State) (a : Word) : (setcc v s).cell a = s.cell a := rfl
@[simp] theorem setcc_pc (v : Word) (s : State) : (setcc v s).pc = s.pc := rfl
@[simp] theorem setcc_status (v : Word) (s : State) : (setcc v s).status = s.status := rfl
@[simp] theorem setcc_host (v : Word) (s : State) : (setcc v s).host = s.host := rfl

/-- Settles O8: the clauses by the branches of `condOf`, the frame field by field. -/
theorem setccGivesTheFlagOfTheSignedValue : Obligations.SetccGivesTheFlagOfTheSignedValue := by
  intro v s
  exact ⟨fun h0 => h0 ▸ condOf_zero, condOf_neg, condOf_pos, condOf_flagOf v,
    fun r _ => setcc_reg v s r, fun a _ => setcc_cell v s a, setcc_pc v s, setcc_status v s, setcc_host v s⟩

/-! ### The instructions of R26's list: COND is the flag of the register written -/

/-- After `R[DR] <- v; setcc(v)`, COND is the flag of DR. -/
theorem writeResult_flagOf (dr : Reg) (v : Word) (s : State) :
    FlagOf ((writeResult dr v s).reg dr) (writeResult dr v s).cond := by
  rw [writeResult_reg_same, writeResult_cond]
  exact condOf_flagOf v

/-- A cycle that goes on after a part and still runs has come through the part's end, not its fatal error. -/
theorem Effect.andThen_running {α : Type} {e : Effect α} {k : α → State → Host.Outcome State Fault Refusal}
    {t : State} (h : e.andThen k = .next t) (hr : t.status = .running) :
    ∃ a s, e = .done a s ∧ k a s = .next t := by
  obtain hdone | ⟨r, s, -, rfl⟩ := Effect.andThen_next h
  · exact hdone
  · rw [raiseFatal_status] at hr
    cases hr

/-- The end of LD, LDR and LDI: a read whose word goes into DR. -/
theorem load_flagOf {dr : Reg} {a : Word} {s t : State}
    (h : ((memRead a s).andThen fun v s' => .next (writeResult dr v s')) = .next t)
    (hr : t.status = .running) : FlagOf (t.reg dr) t.cond := by
  obtain ⟨v, s', -, hk⟩ := Effect.andThen_running h hr
  cases hk
  exact writeResult_flagOf dr v s'

/-- A listed instruction after which the engine still runs leaves the flag of its destination register. -/
theorem exec_flagOf_destination {i : Instr} {s t : State} (h : exec i s = .next t)
    (hu : updatesFlags i = true) (hr : t.status = .running) :
    ∃ d, destination i = some d ∧ FlagOf (t.reg d) t.cond := by
  cases i with
  | addReg dr | addImm dr | andReg dr | andImm dr | not dr | lea dr =>
    cases h
    exact ⟨dr, rfl, writeResult_flagOf dr _ s⟩
  | ld dr | ldr dr => exact ⟨dr, rfl, load_flagOf h hr⟩
  | ldi dr =>
    obtain ⟨p, s', -, hload⟩ := Effect.andThen_running h hr
    exact ⟨dr, rfl, load_flagOf hload hr⟩
  | _ => cases hu

/-! ### The other instructions keep COND -/

theorem branchIf_cond (n z p : Bool) (off9 : BitVec 9) (s : State) : (branchIf n z p off9 s).cond = s.cond := by
  unfold branchIf
  split <;> rfl

theorem execSti_cond {sr : Reg} {off9 : BitVec 9} {s t : State} (h : execSti sr off9 s = .next t) :
    t.cond = s.cond := by
  obtain ⟨p, s', hread, hk⟩ | ⟨r, s', hread, rfl⟩ := Effect.andThen_next h
  · cases hk
    exact (memRead_done_frame hread).cond
  · obtain ⟨-, -, -, hf⟩ := memRead_fatal_frame hread
    exact hf.cond

theorem routineGetc_cond {s t : State} (h : routineGetc s = .next t) : t.cond = s.cond :=
  (routineGetc_frame h).1.cond

theorem routineOut_cond {s t : State} (h : routineOut s = .next t) : t.cond = s.cond := by
  cases h
  exact (settleWrite_frame _ s).1.cond

theorem routinePuts_cond {s t : State} (h : routinePuts s = .next t) : t.cond = s.cond :=
  (putsLoop_frame h).1.cond

theorem routineIn_cond {s t : State} (h : routineIn s = .next t) : t.cond = s.cond :=
  (routineIn_frame h).1.cond

theorem routinePutsp_cond {s t : State} (h : routinePutsp s = .next t) : t.cond = s.cond :=
  (putspLoop_frame h).1.cond

theorem routineHalt_cond {s t : State} (h : routineHalt s = .next t) : t.cond = s.cond := by
  cases h
  rfl

/-- TRAP keeps COND whatever its vector (R149). -/
theorem execTrap_cond {v : BitVec 8} {s t : State} (h : execTrap v s = .next t) : t.cond = s.cond := by
  unfold execTrap at h
  split_ifs at h
  · exact routineGetc_cond h
  · exact routineOut_cond h
  · exact routinePuts_cond h
  · exact routineIn_cond h
  · exact routinePutsp_cond h
  · exact routineHalt_cond h
  · cases h
    rfl

/-- An instruction outside R26's list keeps COND. -/
theorem exec_cond {i : Instr} {s t : State} (h : exec i s = .next t) (hu : updatesFlags i = false) :
    t.cond = s.cond := by
  cases i with
  | addReg | addImm | andReg | andImm | not | ld | ldi | ldr | lea => cases hu
  | br | nop =>
    cases h
    exact branchIf_cond _ _ _ _ s
  | jmp | ret | jsr | jsrr | st | str | rti | res =>
    cases h
    rfl
  | sti => exact execSti_cond h
  | trap => exact execTrap_cond h
  | getc => exact routineGetc_cond h
  | out => exact routineOut_cond h
  | puts => exact routinePuts_cond h
  | in_ => exact routineIn_cond h
  | putsp => exact routinePutsp_cond h
  | halt => exact routineHalt_cond h

/-- Settles O9: the instructions outside the list by their frames, those of it by `writeResult`. -/
theorem onlyListedInstructionsUpdateFlags : Obligations.OnlyListedInstructionsUpdateFlags := by
  intro i s t h
  exact ⟨exec_cond h, exec_flagOf_destination h⟩

end Sys2Proof.Machine
end

section
/-! PROOFS. Sign extension (30_encoding.md R67, R68): the source's formula clause by clause, its meeting with
the library's `BitVec.signExtend`, and the signed value it keeps. -/
namespace Sys2Proof.Machine

theorem sext_of_msb_true {n : Nat} {x : BitVec n} (h : x.msb = true) :
    sext x = x.setWidth 16 ||| (0xFFFF#16 <<< n) := if_pos h

theorem sext_of_msb_false {n : Nat} {x : BitVec n} (h : x.msb = false) : sext x = x.setWidth 16 :=
  if_neg (Bool.eq_false_iff.mp h)

/-- The mask of R67 sets bits [15:N] and no other. -/
theorem getElem_onesMask {n i : Nat} (hi : i < 16) : (0xFFFF#16 <<< n)[i] = decide (n ≤ i) := by
  have hones : (0xFFFF#16)[i - n] = true := BitVec.getElem_allOnes (v := 16) (i - n) (by omega)
  rw [BitVec.getElem_shiftLeft, hones, Bool.and_true, ← decide_not, decide_eq_decide, not_lt]

/-- R67's formula is sign extension bit by bit: below N the field's own bit, from N on its sign bit. -/
theorem sext_eq_signExtend {n : Nat} (x : BitVec n) : sext x = x.signExtend 16 := by
  cases hmsb : x.msb with
  | false => rw [sext_of_msb_false hmsb, BitVec.signExtend_eq_setWidth_of_msb_false hmsb]
  | true =>
    rw [sext_of_msb_true hmsb]
    ext i hi
    rw [BitVec.getElem_or, BitVec.getElem_setWidth, getElem_onesMask hi, BitVec.getElem_signExtend, hmsb]
    by_cases hin : i < n
    · simp [hin, BitVec.getLsbD_eq_getElem]
    · simp [hin, not_lt.mp hin]

theorem sext_toInt {n : Nat} (x : BitVec n) (hn : n ≤ 16) : (sext x).toInt = x.toInt := by
  rw [sext_eq_signExtend, BitVec.toInt_signExtend_of_le hn]

/-- Settles O7: bit N-1 is the sign bit that `sext` asks for, and sign extension keeps the signed value. -/
theorem signExtensionKeepsSignedValue : Obligations.SignExtensionKeepsSignedValue := by
  intro n x _ hn
  rw [← BitVec.msb_eq_getLsbD_last]
  exact ⟨sext_of_msb_true, sext_of_msb_false, sext_toInt x hn⟩

end Sys2Proof.Machine
end

section
/-! PROOFS. ADD, AND and NOT (40_operate.md R100-R104): each goes on with one `writeResult`, whose value is
computed in the state before it; what `writeResult` writes and leaves is said once. -/
namespace Sys2Proof.Machine

/-! ### `R[DR] <- v; setcc(v)`, with its frame -/

theorem writeResult_regsKept (dr : Reg) (v : Word) (s : State) : RegsKept [dr] s (writeResult dr v s) :=
  fun _ hr => writeResult_reg_other v s (List.ne_of_not_mem_cons hr)

theorem writeResult_resultWritten (dr : Reg) (v : Word) (s : State) :
    ResultWritten dr v s (writeResult dr v s) :=
  ⟨writeResult_reg_same dr v s, condOf_flagOf v, writeResult_regsKept dr v s,
    fun a _ => writeResult_cell dr v s a, writeResult_pc dr v s, writeResult_status dr v s,
    writeResult_host dr v s⟩

/-! ### The five operate instructions -/

theorem exec_addReg (dr sr1 sr2 : Reg) (s : State) :
    exec (.addReg dr sr1 sr2) s = .next (writeResult dr (s.reg sr1 + s.reg sr2) s) := rfl

theorem exec_addImm (dr sr1 : Reg) (imm5 : BitVec 5) (s : State) :
    exec (.addImm dr sr1 imm5) s = .next (writeResult dr (s.reg sr1 + sext imm5) s) := rfl

theorem exec_andReg (dr sr1 sr2 : Reg) (s : State) :
    exec (.andReg dr sr1 sr2) s = .next (writeResult dr (s.reg sr1 &&& s.reg sr2) s) := rfl

theorem exec_andImm (dr sr1 : Reg) (imm5 : BitVec 5) (s : State) :
    exec (.andImm dr sr1 imm5) s = .next (writeResult dr (s.reg sr1 &&& sext imm5) s) := rfl

theorem exec_not (dr sr : Reg) (s : State) :
    exec (.not dr sr) s = .next (writeResult dr (~~~(s.reg sr)) s) := rfl

/-- Settles O12: both forms of ADD go on with the sum written by `writeResult`. -/
theorem addWritesTheSum : Obligations.AddWritesTheSum := by
  intro dr sr1 sr2 imm5 s
  constructor
  · exact ⟨_, exec_addReg dr sr1 sr2 s, writeResult_resultWritten dr _ s⟩
  · exact ⟨_, exec_addImm dr sr1 imm5 s, writeResult_resultWritten dr _ s⟩

/-- Settles O13: both forms of AND go on with the conjunction written by `writeResult`. -/
theorem andWritesTheConjunction : Obligations.AndWritesTheConjunction := by
  intro dr sr1 sr2 imm5 s
  constructor
  · exact ⟨_, exec_andReg dr sr1 sr2 s, writeResult_resultWritten dr _ s⟩
  · exact ⟨_, exec_andImm dr sr1 imm5 s, writeResult_resultWritten dr _ s⟩

/-- Settles O14: NOT goes on with the complement written by `writeResult`. -/
theorem notWritesTheComplement : Obligations.NotWritesTheComplement := by
  intro dr sr s
  exact ⟨_, exec_not dr sr s, writeResult_resultWritten dr _ s⟩

end Sys2Proof.Machine
end

section
/-! PROOFS. JMP and RET (41_control.md R111): both go on with one `jumpThrough`, a `setPc` to the base
register's value; what `setPc` writes and leaves is said once. -/
namespace Sys2Proof.Machine

/-! ### `PC <- v`, with its frame -/

theorem setPc_onlyPcChanged (v : Word) (s : State) : OnlyPcChanged v s (s.setPc v) :=
  ⟨s.setPc_pc v, fun r _ => s.setPc_reg v r, fun a _ => s.setPc_cell v a, s.setPc_cond v,
    s.setPc_status v, s.setPc_host v⟩

theorem jumpThrough_onlyPcChanged (base : Reg) (s : State) :
    OnlyPcChanged (s.reg base) s (jumpThrough base s) :=
  setPc_onlyPcChanged (s.reg base) s

/-! ### The two jumps through a register -/

theorem exec_jmp (base : Reg) (s : State) : exec (.jmp base) s = .next (jumpThrough base s) := rfl

theorem exec_ret (s : State) : exec .ret s = .next (jumpThrough .r7 s) := rfl

/-- Settles O17: JMP goes on with a jump through its base register, RET with one through R7. -/
theorem jumpGoesToTheBase : Obligations.JumpGoesToTheBase := by
  intro base s
  constructor
  · exact ⟨_, exec_jmp base s, jumpThrough_onlyPcChanged base s⟩
  · exact ⟨_, exec_ret s, jumpThrough_onlyPcChanged .r7 s⟩

end Sys2Proof.Machine
end

section
/-! PROOFS. TRAP (43_trap.md R140, R147, R149): which routine a vector selects, and what every trap keeps. -/
namespace Sys2Proof.Machine

/-! ### `status <- v`, with its frame -/

theorem setStatus_onlyStatusChanged (st : Status) (s : State) : OnlyStatusChanged st s (s.setStatus st) :=
  ⟨s.setStatus_status st, fun r _ => s.setStatus_reg st r, fun a _ => s.setStatus_cell st a, s.setStatus_cond st,
    s.setStatus_pc st, s.setStatus_host st⟩

/-! ### The choice of the routine (R140, R147) -/

theorem exec_trap (v : BitVec 8) (s : State) : exec (.trap v) s = execTrap v s := rfl

/-- A vector outside 0x20-0x25 is none of the six routines' (R147). -/
theorem execTrap_unknown {v : BitVec 8} (s : State) (hv : v.toNat < 0x20 ∨ 0x25 < v.toNat) :
    execTrap v s = .next (raiseFatal (.unknownTrapVector v) s) := by
  have hne (u : BitVec 8) (hu : 0x20 ≤ u.toNat ∧ u.toNat ≤ 0x25) : v ≠ u := by rintro rfl; omega
  rw [execTrap, if_neg (hne 0x20 (by decide)), if_neg (hne 0x21 (by decide)), if_neg (hne 0x22 (by decide)),
    if_neg (hne 0x23 (by decide)), if_neg (hne 0x24 (by decide)), if_neg (hne 0x25 (by decide))]

/-- Settles O30: each routine's vector picks its branch of `execTrap`, any other vector the last one, whose
fatal error sets the status alone. -/
theorem trapSelectsTheRoutineOfItsVector : Obligations.TrapSelectsTheRoutineOfItsVector := by
  intro v s
  refine ⟨?getc, ?out, ?puts, ?in_, ?putsp, ?halt, fun hv => ?unknown⟩
  case unknown =>
    exact ⟨_, (exec_trap v s).trans (execTrap_unknown s hv), setStatus_onlyStatusChanged _ s⟩
  all_goals
    rintro rfl
    rfl

/-! ### What every trap keeps (R149) -/

theorem routineOut_frame {s t : State} (h : routineOut s = .next t) : RoutineFrame s t := by
  cases h
  exact (settleWrite_frame _ s).1

/-- What a trap that answers next has done: kept the routines' frame, or (HALT, an unknown vector) set the
status alone. -/
def TrapEffect (s t : State) : Prop := RoutineFrame s t ∨ ∃ st, t = s.setStatus st

theorem TrapEffect.saves_nothing {s t : State} (h : TrapEffect s t) :
    t.reg .r7 = s.reg .r7 ∧ t.pc = s.pc ∧ t.cond = s.cond := by
  obtain hf | ⟨st, rfl⟩ := h
  · exact ⟨hf.regs .r7 (by decide), hf.pc, hf.cond⟩
  · exact ⟨s.setStatus_reg st .r7, s.setStatus_pc st, s.setStatus_cond st⟩

theorem execTrap_effect {v : BitVec 8} {s t : State} (h : execTrap v s = .next t) : TrapEffect s t := by
  unfold execTrap at h
  split_ifs at h
  · exact .inl (routineGetc_frame h).1
  · exact .inl (routineOut_frame h)
  · exact .inl (putsLoop_frame h).1
  · exact .inl (routineIn_frame h).1
  · exact .inl (putspLoop_frame h).1
  · cases h
    exact .inr ⟨_, rfl⟩
  · cases h
    exact .inr ⟨_, rfl⟩

/-- A routine's own row runs as the TRAP of its vector, so the effect of TRAP covers every trap word. -/
theorem exec_trapWord_effect {i : Instr} {s t : State} (hi : isTrapWord i = true) (h : exec i s = .next t) :
    TrapEffect s t := by
  cases i with
  | trap => exact execTrap_effect h
  | getc => exact execTrap_effect (v := 0x20) h
  | out => exact execTrap_effect (v := 0x21) h
  | puts => exact execTrap_effect (v := 0x22) h
  | in_ => exact execTrap_effect (v := 0x23) h
  | putsp => exact execTrap_effect (v := 0x24) h
  | halt => exact execTrap_effect (v := 0x25) h
  | _ => cases hi

/-- Settles O32: the effect of a trap, whatever its vector, keeps R7, PC and COND. -/
theorem trapSavesNothingAndKeepsFlags : Obligations.TrapSavesNothingAndKeepsFlags := by
  intro i s t hi h
  exact (exec_trapWord_effect hi h).saves_nothing

end Sys2Proof.Machine
end

section
/-! PROOFS. PUTSP always ends (43_trap.md R145, D7, D21): the pointer wraps, so a walk that meets no
terminator before it comes to 0xFE00, whose word after a poll is a terminator. -/
namespace Sys2Proof.Machine

/-- The outcome of a part that ends, or waits for a host that never answers (D24). -/
def EndsOrSilent (o : Host.Outcome State Fault Refusal) : Prop := (∃ t, o = .next t) ∨ o = .fault .hostSilent

theorem EndsOrSilent.next (t : State) : EndsOrSilent (.next t) := .inl ⟨t, rfl⟩

/-- A read of 0xFE00 that is done gives 0x8000 or 0x0000, so its low byte is zero (R42, D7). -/
theorem lowByte_memRead_kbsr {c : Word} {s s' : State} (h : memRead kbsr s = .done c s') : lowByte c = 0x00 := by
  obtain ⟨b, k, -, hm⟩ | ⟨k, -, hm⟩ | ⟨k, -, hm⟩ | ⟨-, hm⟩ := memRead_kbsr_cases s <;> rw [hm] at h <;> cases h
  · decide
  · decide

/-- How many cells the pointer has before it until it comes to 0xFE00, over the wrap (D21). -/
def cellsToKbsr (a : Word) : Nat := (kbsr - a).toNat

theorem cellsToKbsr_succ {a : Word} (h : a ≠ kbsr) : cellsToKbsr (a + 1) + 1 = cellsToKbsr a := by
  unfold cellsToKbsr kbsr at *
  bv_omega

/-- The walk ends at 0xFE00 at the latest, so one cell more than there are before it is enough fuel. -/
theorem putspLoop_ends {n : Nat} {a : Word} (hn : cellsToKbsr a < n) (s : State) :
    EndsOrSilent (putspLoop n a s) := by
  induction n generalizing a s with
  | zero => exact absurd hn (Nat.not_lt_zero _)
  | succ n ih =>
    unfold putspLoop
    cases hm : memRead a s with
    | fatal r s' => exact .next _
    | stuck f =>
      obtain ⟨-, rfl, -⟩ := memRead_stuck hm
      exact .inr rfl
    | done c s' =>
      rw [Effect.andThen_done]
      split
      · exact .next _
      · next hc =>
        have ha : a ≠ kbsr := by rintro rfl; exact hc (lowByte_memRead_kbsr hm)
        have hstep := cellsToKbsr_succ ha
        split
        · exact ih (by omega) _
        · exact .next _

theorem cellsToKbsr_lt_stringFuel (a : Word) (s : State) : cellsToKbsr a < stringFuel s := by
  have hlt : cellsToKbsr a < 65536 := (kbsr - a).isLt
  unfold stringFuel
  omega

/-- Settles O39: the fuel of PUTSP covers the walk from any R0 to 0xFE00. -/
theorem putspAlwaysEnds : Obligations.PutspAlwaysEnds := by
  intro s
  exact putspLoop_ends (cellsToKbsr_lt_stringFuel (s.reg .r0) s) s

end Sys2Proof.Machine
end

section
/-! PROOFS. RTI and RES (44_reserved.md R160, R161): what each of them answers, and the words that are read as
one of them. The opcode is bits [15:12] alone, so `instr[11:0]` is ignored. -/
namespace Sys2Proof

/-- The mask 0xF000 keeps the whole opcode column (R62). -/
theorem opcodeField_and_mask (w : Word) : opcodeField (w &&& 0xF000) = opcodeField w := by
  unfold opcodeField
  rw [BitVec.extractLsb'_and]
  exact BitVec.and_allOnes

theorem opcodeField_of_mask {w m : Word} (h : w &&& 0xF000 = m) : opcodeField w = opcodeField m := by
  rw [← h, opcodeField_and_mask]

theorem decode_eq_rti_of_mask {w : Word} (h : w &&& 0xF000 = 0x8000) : decode w = .rti := by
  have hop : Opcode.ofField (opcodeField w) = .rti := by rw [opcodeField_of_mask h]; rfl
  simp only [decode, hop]

theorem decode_eq_res_of_mask {w : Word} (h : w &&& 0xF000 = 0xD000) : decode w = .res := by
  have hop : Opcode.ofField (opcodeField w) = .res := by rw [opcodeField_of_mask h]; rfl
  simp only [decode, hop]

end Sys2Proof

namespace Sys2Proof.Machine

theorem exec_rti (s : State) : exec .rti s = .next (raiseFatal (.unsupportedOpcode 0x8) s) := rfl

theorem exec_res (s : State) : exec .res s = .next (raiseFatal (.unsupportedOpcode 0xD) s) := rfl

/-- Settles O42: both go on with one `raiseFatal`, which sets the status alone, and the opcode of a word fixes
its row. -/
theorem reservedOpcodesAreFatal : Obligations.ReservedOpcodesAreFatal := by
  intro w s
  refine ⟨?rti, ?res, decode_eq_rti_of_mask, decode_eq_res_of_mask⟩
  case rti => exact ⟨_, exec_rti s, setStatus_onlyStatusChanged _ s⟩
  case res => exact ⟨_, exec_res s, setStatus_onlyStatusChanged _ s⟩

end Sys2Proof.Machine
end

section
/-! PROOFS. Decoding and encoding (30_encoding.md R60-R69): what `decode` answers for each opcode, the fields of
each format's word, and from these both directions between words and instructions. -/
namespace Sys2Proof

/-! ### The decoder, opcode by opcode (R62) -/

@[simp] theorem Reg.field_ofField (f : BitVec 3) : (Reg.ofField f).field = f := by
  revert f
  decide

/-- The sixteen opcodes are all the values of bits [15:12] (R61). -/
theorem Opcode.field_ofField (f : BitVec 4) : (Opcode.ofField f).field = f := by
  revert f
  decide

theorem exists_opcode (w : Word) : ∃ op : Opcode, opcodeField w = op.field :=
  ⟨_, (Opcode.field_ofField _).symm⟩

section
variable {w : Word}

theorem decode_of_br (h : opcodeField w = Opcode.br.field) :
    decode w = decodeBr (w.getLsbD 11) (w.getLsbD 10) (w.getLsbD 9) (off9Field w) := by
  simp only [decode, h, Opcode.ofField_field]

theorem decode_of_addReg (h : opcodeField w = Opcode.add.field) (hmode : w.getLsbD 5 = false) :
    decode w = .addReg (.ofField (drField w)) (.ofField (srField w)) (.ofField (sr2Field w)) := by
  simp only [decode, h, Opcode.ofField_field, hmode, Bool.false_eq_true, if_false]

theorem decode_of_addImm (h : opcodeField w = Opcode.add.field) (hmode : w.getLsbD 5 = true) :
    decode w = .addImm (.ofField (drField w)) (.ofField (srField w)) (imm5Field w) := by
  simp only [decode, h, Opcode.ofField_field, hmode, if_true]

theorem decode_of_ld (h : opcodeField w = Opcode.ld.field) :
    decode w = .ld (.ofField (drField w)) (off9Field w) := by
  simp only [decode, h, Opcode.ofField_field]

theorem decode_of_st (h : opcodeField w = Opcode.st.field) :
    decode w = .st (.ofField (drField w)) (off9Field w) := by
  simp only [decode, h, Opcode.ofField_field]

theorem decode_of_jsr (h : opcodeField w = Opcode.jsr.field) (hmode : w.getLsbD 11 = true) :
    decode w = .jsr (off11Field w) := by
  simp only [decode, h, Opcode.ofField_field, hmode, if_true]

theorem decode_of_jsrr (h : opcodeField w = Opcode.jsr.field) (hmode : w.getLsbD 11 = false) :
    decode w = .jsrr (.ofField (srField w)) := by
  simp only [decode, h, Opcode.ofField_field, hmode, Bool.false_eq_true, if_false]

theorem decode_of_andReg (h : opcodeField w = Opcode.and.field) (hmode : w.getLsbD 5 = false) :
    decode w = .andReg (.ofField (drField w)) (.ofField (srField w)) (.ofField (sr2Field w)) := by
  simp only [decode, h, Opcode.ofField_field, hmode, Bool.false_eq_true, if_false]

theorem decode_of_andImm (h : opcodeField w = Opcode.and.field) (hmode : w.getLsbD 5 = true) :
    decode w = .andImm (.ofField (drField w)) (.ofField (srField w)) (imm5Field w) := by
  simp only [decode, h, Opcode.ofField_field, hmode, if_true]

theorem decode_of_ldr (h : opcodeField w = Opcode.ldr.field) :
    decode w = .ldr (.ofField (drField w)) (.ofField (srField w)) (off6Field w) := by
  simp only [decode, h, Opcode.ofField_field]

theorem decode_of_str (h : opcodeField w = Opcode.str.field) :
    decode w = .str (.ofField (drField w)) (.ofField (srField w)) (off6Field w) := by
  simp only [decode, h, Opcode.ofField_field]

theorem decode_of_rti (h : opcodeField w = Opcode.rti.field) : decode w = .rti := by
  simp only [decode, h, Opcode.ofField_field]

theorem decode_of_not (h : opcodeField w = Opcode.not.field) :
    decode w = .not (.ofField (drField w)) (.ofField (srField w)) := by
  simp only [decode, h, Opcode.ofField_field]

theorem decode_of_ldi (h : opcodeField w = Opcode.ldi.field) :
    decode w = .ldi (.ofField (drField w)) (off9Field w) := by
  simp only [decode, h, Opcode.ofField_field]

theorem decode_of_sti (h : opcodeField w = Opcode.sti.field) :
    decode w = .sti (.ofField (drField w)) (off9Field w) := by
  simp only [decode, h, Opcode.ofField_field]

theorem decode_of_jmp (h : opcodeField w = Opcode.jmp.field) : decode w = decodeJmp (.ofField (srField w)) := by
  simp only [decode, h, Opcode.ofField_field]

theorem decode_of_res (h : opcodeField w = Opcode.res.field) : decode w = .res := by
  simp only [decode, h, Opcode.ofField_field]

theorem decode_of_lea (h : opcodeField w = Opcode.lea.field) :
    decode w = .lea (.ofField (drField w)) (off9Field w) := by
  simp only [decode, h, Opcode.ofField_field]

theorem decode_of_trap (h : opcodeField w = Opcode.trap.field) : decode w = decodeTrap (vect8Field w) := by
  simp only [decode, h, Opcode.ofField_field]

end

/-! ### The rows that share an opcode (R73) -/

theorem decodeBr_of_flag {n z p : Bool} (off9 : BitVec 9) (h : (n || z || p) = true) :
    decodeBr n z p off9 = .br n z p off9 := if_pos h

theorem decodeJmp_of_ne {base : Reg} (h : base ≠ .r7) : decodeJmp base = .jmp base := if_neg h

theorem decodeTrap_unknown {v : BitVec 8} (hv : v.toNat < 0x20 ∨ 0x25 < v.toNat) : decodeTrap v = .trap v := by
  have hne (u : BitVec 8) (hu : 0x20 ≤ u.toNat ∧ u.toNat ≤ 0x25) : v ≠ u := by rintro rfl; omega
  rw [decodeTrap, if_neg (hne 0x20 (by decide)), if_neg (hne 0x21 (by decide)), if_neg (hne 0x22 (by decide)),
    if_neg (hne 0x23 (by decide)), if_neg (hne 0x24 (by decide)), if_neg (hne 0x25 (by decide))]

/-- The six routines' vectors are all of 0x20-0x25 (R140). -/
theorem vector_outside_of_ne {v : BitVec 8} (h20 : v ≠ 0x20) (h21 : v ≠ 0x21) (h22 : v ≠ 0x22) (h23 : v ≠ 0x23)
    (h24 : v ≠ 0x24) (h25 : v ≠ 0x25) : v.toNat < 0x20 ∨ 0x25 < v.toNat := by
  bv_omega

theorem isRoutineVector_iff (v : BitVec 8) : isRoutineVector v = true ↔ 0x20 ≤ v.toNat ∧ v.toNat ≤ 0x25 := by
  simp only [isRoutineVector, Bool.and_eq_true, decide_eq_true_eq, BitVec.le_def, BitVec.toNat_ofNat, Nat.reducePow,
    Nat.reduceMod]

theorem isRoutineVector_eq_false_iff (v : BitVec 8) :
    isRoutineVector v = false ↔ v.toNat < 0x20 ∨ 0x25 < v.toNat := by
  rw [← Bool.not_eq_true, isRoutineVector_iff]
  omega

theorem decodeBr_wellFormed (n z p : Bool) (off9 : BitVec 9) : (decodeBr n z p off9).wellFormed = true := by
  unfold decodeBr
  split
  · next h => exact h
  · rfl

theorem decodeJmp_wellFormed (base : Reg) : (decodeJmp base).wellFormed = true := by
  unfold decodeJmp
  split
  · rfl
  · next h => exact bne_iff_ne.mpr h

theorem decodeTrap_wellFormed (v : BitVec 8) : (decodeTrap v).wellFormed = true := by
  unfold decodeTrap
  split_ifs with h20 h21 h22 h23 h24 h25
  case neg =>
    rw [Instr.wellFormed, (isRoutineVector_eq_false_iff v).mpr (vector_outside_of_ne h20 h21 h22 h23 h24 h25)]
    rfl
  all_goals rfl

/-- Settles O6: the rows that share an opcode are told apart by their own decoders, every other row is
well-formed whatever its fields. -/
theorem decodedInstructionsAreWellFormed : Obligations.DecodedInstructionsAreWellFormed := by
  intro w
  obtain ⟨op, h⟩ := exists_opcode w
  cases op with
  | br => rw [decode_of_br h]; exact decodeBr_wellFormed _ _ _ _
  | jmp => rw [decode_of_jmp h]; exact decodeJmp_wellFormed _
  | trap => rw [decode_of_trap h]; exact decodeTrap_wellFormed _
  | add =>
    cases hmode : w.getLsbD 5 with
    | false => rw [decode_of_addReg h hmode]; rfl
    | true => rw [decode_of_addImm h hmode]; rfl
  | and =>
    cases hmode : w.getLsbD 5 with
    | false => rw [decode_of_andReg h hmode]; rfl
    | true => rw [decode_of_andImm h hmode]; rfl
  | jsr =>
    cases hmode : w.getLsbD 11 with
    | false => rw [decode_of_jsrr h hmode]; rfl
    | true => rw [decode_of_jsr h hmode]; rfl
  | ld => rw [decode_of_ld h]; rfl
  | st => rw [decode_of_st h]; rfl
  | ldr => rw [decode_of_ldr h]; rfl
  | str => rw [decode_of_str h]; rfl
  | rti => rw [decode_of_rti h]; rfl
  | not => rw [decode_of_not h]; rfl
  | ldi => rw [decode_of_ldi h]; rfl
  | sti => rw [decode_of_sti h]; rfl
  | res => rw [decode_of_res h]; rfl
  | lea => rw [decode_of_lea h]; rfl

/-- Settles O1: each word evaluated by the decoder. -/
theorem writtenOutWordsDecode : Obligations.WrittenOutWordsDecode := by
  unfold Obligations.WrittenOutWordsDecode
  decide

/-! ### The fields of each format's word (R63) -/

theorem getElem_atBit {n : Nat} (lo : Nat) (f : BitVec n) {i : Nat} (hi : i < 16) :
    (atBit lo f)[i] = (!decide (i < lo) && f.getLsbD (i - lo)) := by
  rw [← BitVec.getLsbD_eq_getElem, getLsbD_atBit, decide_eq_true hi, Bool.true_and]

section
variable (op : Opcode) (r s t : Reg)

theorem fields_wordPC9 (off9 : BitVec 9) : opcodeField (wordPC9 op r off9) = op.field ∧
    drField (wordPC9 op r off9) = r.field ∧ off9Field (wordPC9 op r off9) = off9 := by
  simp [opcodeField, drField, off9Field, wordPC9, BitVec.extractLsb'_or, extract_atBit_same, extract_atBit_above,
    extract_atBit_below]

theorem fields_wordBase6 (off6 : BitVec 6) : opcodeField (wordBase6 op r s off6) = op.field ∧
    drField (wordBase6 op r s off6) = r.field ∧ srField (wordBase6 op r s off6) = s.field ∧
    off6Field (wordBase6 op r s off6) = off6 := by
  simp [opcodeField, drField, srField, off6Field, wordBase6, BitVec.extractLsb'_or, extract_atBit_same,
    extract_atBit_above, extract_atBit_below]

theorem fields_wordOpReg : opcodeField (wordOpReg op r s t) = op.field ∧
    drField (wordOpReg op r s t) = r.field ∧ srField (wordOpReg op r s t) = s.field ∧
    (wordOpReg op r s t).getLsbD 5 = false ∧ sr2Field (wordOpReg op r s t) = t.field := by
  simp [opcodeField, drField, srField, sr2Field, wordOpReg, BitVec.extractLsb'_or, extract_atBit_same,
    extract_atBit_above, extract_atBit_below, getElem_atBit]

theorem fields_wordOpImm (imm5 : BitVec 5) : opcodeField (wordOpImm op r s imm5) = op.field ∧
    drField (wordOpImm op r s imm5) = r.field ∧ srField (wordOpImm op r s imm5) = s.field ∧
    (wordOpImm op r s imm5).getLsbD 5 = true ∧ imm5Field (wordOpImm op r s imm5) = imm5 := by
  simp [opcodeField, drField, srField, imm5Field, wordOpImm, BitVec.extractLsb'_or, extract_atBit_same,
    extract_atBit_above, extract_atBit_below, getElem_atBit]

theorem fields_wordNot : opcodeField (wordNot r s) = Opcode.not.field ∧
    drField (wordNot r s) = r.field ∧ srField (wordNot r s) = s.field := by
  simp [opcodeField, drField, srField, wordNot, BitVec.extractLsb'_or, extract_atBit_same, extract_atBit_above,
    extract_atBit_below]

theorem fields_wordBr (n z p : Bool) (off9 : BitVec 9) : opcodeField (wordBr n z p off9) = Opcode.br.field ∧
    (wordBr n z p off9).getLsbD 11 = n ∧ (wordBr n z p off9).getLsbD 10 = z ∧
    (wordBr n z p off9).getLsbD 9 = p ∧ off9Field (wordBr n z p off9) = off9 := by
  simp [opcodeField, off9Field, wordBr, BitVec.extractLsb'_or, extract_atBit_same, extract_atBit_above,
    extract_atBit_below, getElem_atBit]

theorem fields_wordJmp : opcodeField (wordJmp r) = Opcode.jmp.field ∧ srField (wordJmp r) = r.field := by
  simp [opcodeField, srField, wordJmp, BitVec.extractLsb'_or, extract_atBit_same, extract_atBit_above,
    extract_atBit_below]

theorem fields_wordJsr (off11 : BitVec 11) : opcodeField (wordJsr off11) = Opcode.jsr.field ∧
    (wordJsr off11).getLsbD 11 = true ∧ off11Field (wordJsr off11) = off11 := by
  simp [opcodeField, off11Field, wordJsr, BitVec.extractLsb'_or, extract_atBit_same, extract_atBit_above,
    extract_atBit_below, getElem_atBit]

theorem fields_wordJsrr : opcodeField (wordJsrr r) = Opcode.jsr.field ∧
    (wordJsrr r).getLsbD 11 = false ∧ srField (wordJsrr r) = r.field := by
  simp [opcodeField, srField, wordJsrr, BitVec.extractLsb'_or, extract_atBit_same, extract_atBit_above,
    extract_atBit_below, getElem_atBit]

theorem fields_wordTrap (v : BitVec 8) : opcodeField (wordTrap v) = Opcode.trap.field ∧
    vect8Field (wordTrap v) = v := by
  simp [opcodeField, vect8Field, wordTrap, BitVec.extractLsb'_or, extract_atBit_same, extract_atBit_above,
    extract_atBit_below]

theorem opcodeField_wordRsv : opcodeField (wordRsv op) = op.field :=
  extract_atBit_same op.field (by decide)

end

/-! ### From an instruction to its word and back -/

theorem decode_wordBr (n z p : Bool) (off9 : BitVec 9) : decode (wordBr n z p off9) = decodeBr n z p off9 := by
  obtain ⟨hop, hn, hz, hp, hoff⟩ := fields_wordBr n z p off9
  rw [decode_of_br hop, hn, hz, hp, hoff]

theorem decode_wordJmp (base : Reg) : decode (wordJmp base) = decodeJmp base := by
  obtain ⟨hop, hbase⟩ := fields_wordJmp base
  rw [decode_of_jmp hop, hbase, Reg.ofField_field]

theorem decode_wordTrap (v : BitVec 8) : decode (wordTrap v) = decodeTrap v := by
  obtain ⟨hop, hv⟩ := fields_wordTrap v
  rw [decode_of_trap hop, hv]

/-- Settles O3: the word's opcode picks the row, and each operand is read from the bits it was put in; the rows
that share an opcode are told apart by well-formedness. -/
theorem decodeInvertsEncode : Obligations.DecodeInvertsEncode := by
  intro i hwf
  cases i with
  | addReg dr sr1 sr2 =>
    obtain ⟨hop, hdr, hsr1, hmode, hsr2⟩ := fields_wordOpReg .add dr sr1 sr2
    simp [encode, decode_of_addReg hop hmode, hdr, hsr1, hsr2]
  | addImm dr sr1 imm5 =>
    obtain ⟨hop, hdr, hsr1, hmode, himm⟩ := fields_wordOpImm .add dr sr1 imm5
    simp [encode, decode_of_addImm hop hmode, hdr, hsr1, himm]
  | andReg dr sr1 sr2 =>
    obtain ⟨hop, hdr, hsr1, hmode, hsr2⟩ := fields_wordOpReg .and dr sr1 sr2
    simp [encode, decode_of_andReg hop hmode, hdr, hsr1, hsr2]
  | andImm dr sr1 imm5 =>
    obtain ⟨hop, hdr, hsr1, hmode, himm⟩ := fields_wordOpImm .and dr sr1 imm5
    simp [encode, decode_of_andImm hop hmode, hdr, hsr1, himm]
  | not dr sr =>
    obtain ⟨hop, hdr, hsr⟩ := fields_wordNot dr sr
    simp [encode, decode_of_not hop, hdr, hsr]
  | br n z p off9 => exact (decode_wordBr n z p off9).trans (decodeBr_of_flag off9 hwf)
  | jmp base => exact (decode_wordJmp base).trans (decodeJmp_of_ne (bne_iff_ne.mp hwf))
  | jsr off11 =>
    obtain ⟨hop, hmode, hoff⟩ := fields_wordJsr off11
    simp [encode, decode_of_jsr hop hmode, hoff]
  | jsrr base =>
    obtain ⟨hop, hmode, hbase⟩ := fields_wordJsrr base
    simp [encode, decode_of_jsrr hop hmode, hbase]
  | ld dr off9 =>
    obtain ⟨hop, hdr, hoff⟩ := fields_wordPC9 .ld dr off9
    simp [encode, decode_of_ld hop, hdr, hoff]
  | ldi dr off9 =>
    obtain ⟨hop, hdr, hoff⟩ := fields_wordPC9 .ldi dr off9
    simp [encode, decode_of_ldi hop, hdr, hoff]
  | ldr dr base off6 =>
    obtain ⟨hop, hdr, hbase, hoff⟩ := fields_wordBase6 .ldr dr base off6
    simp [encode, decode_of_ldr hop, hdr, hbase, hoff]
  | lea dr off9 =>
    obtain ⟨hop, hdr, hoff⟩ := fields_wordPC9 .lea dr off9
    simp [encode, decode_of_lea hop, hdr, hoff]
  | st sr off9 =>
    obtain ⟨hop, hsr, hoff⟩ := fields_wordPC9 .st sr off9
    simp [encode, decode_of_st hop, hsr, hoff]
  | sti sr off9 =>
    obtain ⟨hop, hsr, hoff⟩ := fields_wordPC9 .sti sr off9
    simp [encode, decode_of_sti hop, hsr, hoff]
  | str sr base off6 =>
    obtain ⟨hop, hsr, hbase, hoff⟩ := fields_wordBase6 .str sr base off6
    simp [encode, decode_of_str hop, hsr, hbase, hoff]
  | trap v =>
    have hv : isRoutineVector v = false := by simpa [Instr.wellFormed] using hwf
    exact (decode_wordTrap v).trans (decodeTrap_unknown ((isRoutineVector_eq_false_iff v).mp hv))
  | rti => exact decode_of_rti (opcodeField_wordRsv .rti)
  | res => exact decode_of_res (opcodeField_wordRsv .res)
  | ret => exact decode_wordJmp .r7
  | nop off9 => exact decode_wordBr false false false off9
  | getc => exact decode_wordTrap 0x20
  | out => exact decode_wordTrap 0x21
  | puts => exact decode_wordTrap 0x22
  | in_ => exact decode_wordTrap 0x23
  | putsp => exact decode_wordTrap 0x24
  | halt => exact decode_wordTrap 0x25

end Sys2Proof
end

section
/-! PROOFS. Words under masks (30_encoding.md R63, R69, opcode_table.json): a field is read from the bits a mask
keeps, unread bits do not reach any field, and the fields of a word make the word again. -/
namespace Sys2Proof

/-! ### Fields read under a mask -/

section
variable {w m v : Word}

/-- A field whose bits a mask keeps is the field of what the mask leaves. -/
theorem extract_of_mask {start len : Nat} (h : w &&& m = v) (hm : m.extractLsb' start len = BitVec.allOnes len) :
    w.extractLsb' start len = v.extractLsb' start len := by
  rw [← h, BitVec.extractLsb'_and, hm, BitVec.and_allOnes]

theorem getLsbD_of_mask {i : Nat} (h : w &&& m = v) (hm : m.getLsbD i = true) : w.getLsbD i = v.getLsbD i := by
  rw [← h, BitVec.getLsbD_and, hm, Bool.and_true]

/-- A word matches a row: its opcode is that of the row's match value. -/
theorem opcodeField_of_row (op : Opcode) (h : w &&& m = v) (hm : opcodeField m = BitVec.allOnes 4)
    (hv : opcodeField v = op.field) : opcodeField w = op.field :=
  (extract_of_mask h hm).trans hv

end

/-- A field put back at the bits it was read from. -/
theorem atBit_extract (lo n : Nat) (w : Word) :
    atBit lo (w.extractLsb' lo n) = w &&& atBit lo (BitVec.allOnes n) := by
  apply BitVec.eq_of_getLsbD_eq
  intro i hi
  rw [BitVec.getLsbD_and, getLsbD_atBit, getLsbD_atBit, BitVec.getLsbD_extractLsb', BitVec.getLsbD_allOnes]
  by_cases hlo : i < lo
  · simp [hlo]
  · simp [hlo, hi, show lo + (i - lo) = i by omega, Bool.and_comm]

/-- A mode bit, as a field one bit wide. -/
theorem ofBool_getLsbD (w : Word) (i : Nat) : BitVec.ofBool (w.getLsbD i) = w.extractLsb' i 1 := by
  apply BitVec.eq_of_getLsbD_eq
  intro j hj
  obtain rfl : j = 0 := by omega
  simp

theorem atBit_getLsbD (i : Nat) (w : Word) :
    atBit i (BitVec.ofBool (w.getLsbD i)) = w &&& atBit i (BitVec.allOnes 1) := by
  rw [ofBool_getLsbD, atBit_extract]

/-- The bits two masks pick are the bits their union picks. -/
theorem mask_or (w a b : Word) : w &&& a ||| w &&& b = w &&& (a ||| b) := by
  apply BitVec.eq_of_getLsbD_eq
  intro i _
  simp only [BitVec.getLsbD_and, BitVec.getLsbD_or, Bool.and_or_distrib_left]

/-! ### The rows of opcode_table.json -/

theorem flag_named_of_mask {w : Word} (h : w &&& 0x0E00 ≠ 0) :
    (w.getLsbD 11 || w.getLsbD 10 || w.getLsbD 9) = true := by
  by_contra hnone
  obtain ⟨⟨hn, hz⟩, hp⟩ : (w.getLsbD 11 = false ∧ w.getLsbD 10 = false) ∧ w.getLsbD 9 = false := by
    simpa only [Bool.not_eq_true, Bool.or_eq_false_iff] using hnone
  have hmask : w &&& 0x0E00 = w &&& atBit 11 (BitVec.allOnes 1) ||| w &&& atBit 10 (BitVec.allOnes 1) |||
      w &&& atBit 9 (BitVec.allOnes 1) := by
    rw [mask_or, mask_or]
    rfl
  rw [← atBit_getLsbD, ← atBit_getLsbD, ← atBit_getLsbD, hn, hz, hp] at hmask
  exact h hmask

theorem base_ne_r7_of_mask {w : Word} (h : w &&& 0x01C0 ≠ 0x01C0) : Reg.ofField (srField w) ≠ .r7 := by
  intro hbase
  have hfield : srField w = 7 := (Reg.field_ofField _).symm.trans (congrArg Reg.field hbase)
  have hmask := atBit_extract 6 3 w
  exact h (hmask.symm.trans (congrArg (atBit 6) hfield))

theorem toNat_vect8_of_mask (w : Word) : (w &&& 0x00FF).toNat = (vect8Field w).toNat := by
  have hmask : w &&& 0x00FF = atBit 0 (vect8Field w) := (atBit_extract 0 8 w).symm
  rw [hmask, atBit, BitVec.shiftLeft_zero, BitVec.toNat_setWidth_of_le (by decide)]

/-- Settles O2: a row's mask keeps its opcode and mode bits, which pick the row; JMP, BR and TRAP words are told
from the rows that share their opcode by base, flags and vector. -/
theorem tableRowsDecodeByMatchAndMask : Obligations.TableRowsDecodeByMatchAndMask := by
  refine ⟨Reg.field_ofField, fun w => ⟨fun h => ?addReg, fun h => ?addImm, fun h => ?andReg, fun h => ?andImm,
    fun h => ?not, fun h hf => ?br, fun h hb => ?jmp, fun h => ?jsr, fun h => ?jsrr, fun h => ?ld, fun h => ?ldi,
    fun h => ?ldr, fun h => ?lea, fun h => ?st, fun h => ?sti, fun h => ?str, fun h hv => ?trap,
    decode_eq_rti_of_mask, decode_eq_res_of_mask, fun h => ?ret, fun h => ?nop, fun h => ?getc, fun h => ?out,
    fun h => ?puts, fun h => ?in_, fun h => ?putsp, fun h => ?halt⟩⟩
  case addReg => exact decode_of_addReg (opcodeField_of_row .add h rfl rfl) (getLsbD_of_mask h rfl)
  case addImm => exact decode_of_addImm (opcodeField_of_row .add h rfl rfl) (getLsbD_of_mask h rfl)
  case andReg => exact decode_of_andReg (opcodeField_of_row .and h rfl rfl) (getLsbD_of_mask h rfl)
  case andImm => exact decode_of_andImm (opcodeField_of_row .and h rfl rfl) (getLsbD_of_mask h rfl)
  case not => exact decode_of_not (opcodeField_of_row .not h rfl rfl)
  case br =>
    exact (decode_of_br (opcodeField_of_row .br h rfl rfl)).trans (decodeBr_of_flag _ (flag_named_of_mask hf))
  case jmp =>
    exact (decode_of_jmp (opcodeField_of_row .jmp h rfl rfl)).trans (decodeJmp_of_ne (base_ne_r7_of_mask hb))
  case jsr => exact decode_of_jsr (opcodeField_of_row .jsr h rfl rfl) (getLsbD_of_mask h rfl)
  case jsrr => exact decode_of_jsrr (opcodeField_of_row .jsr h rfl rfl) (getLsbD_of_mask h rfl)
  case ld => exact decode_of_ld (opcodeField_of_row .ld h rfl rfl)
  case ldi => exact decode_of_ldi (opcodeField_of_row .ldi h rfl rfl)
  case ldr => exact decode_of_ldr (opcodeField_of_row .ldr h rfl rfl)
  case lea => exact decode_of_lea (opcodeField_of_row .lea h rfl rfl)
  case st => exact decode_of_st (opcodeField_of_row .st h rfl rfl)
  case sti => exact decode_of_sti (opcodeField_of_row .sti h rfl rfl)
  case str => exact decode_of_str (opcodeField_of_row .str h rfl rfl)
  case trap =>
    rw [toNat_vect8_of_mask] at hv
    exact (decode_of_trap (opcodeField_of_row .trap h rfl rfl)).trans (decodeTrap_unknown hv)
  case ret =>
    rw [decode_of_jmp (opcodeField_of_row .jmp h rfl rfl), srField, extract_of_mask h rfl]
    rfl
  case nop =>
    rw [decode_of_br (opcodeField_of_row .br h rfl rfl), getLsbD_of_mask (i := 11) h rfl,
      getLsbD_of_mask (i := 10) h rfl, getLsbD_of_mask (i := 9) h rfl]
    rfl
  all_goals
    rw [decode_of_trap (opcodeField_of_row .trap h rfl rfl), vect8Field, extract_of_mask h rfl]
    rfl

/-! ### Bits a format does not read (R69, D4) -/

theorem extract_xor_and {w x m : Word} {start len : Nat} (hm : m.extractLsb' start len = 0#len) :
    (w ^^^ (x &&& m)).extractLsb' start len = w.extractLsb' start len := by
  rw [BitVec.extractLsb'_xor, BitVec.extractLsb'_and, hm, BitVec.and_zero, BitVec.xor_zero]

theorem getLsbD_xor_and {w x m : Word} {i : Nat} (hm : m.getLsbD i = false) :
    (w ^^^ (x &&& m)).getLsbD i = w.getLsbD i := by
  rw [BitVec.getLsbD_xor, BitVec.getLsbD_and, hm, Bool.and_false, Bool.xor_false]

theorem unreadBits_decodeBr (n z p : Bool) (off9 : BitVec 9) : unreadBits (decodeBr n z p off9) = 0#16 := by
  unfold decodeBr
  split <;> rfl

theorem unreadBits_decodeJmp (base : Reg) : unreadBits (decodeJmp base) = 0x0E3F := by
  unfold decodeJmp
  split <;> rfl

theorem unreadBits_decodeTrap (v : BitVec 8) : unreadBits (decodeTrap v) = 0x0F00 := by
  unfold decodeTrap
  split_ifs <;> rfl

/-- A format that reads every bit. -/
theorem decode_unread_of_none {w : Word} (x : Word) (h : unreadBits (decode w) = 0#16) :
    decode (w ^^^ (x &&& unreadBits (decode w))) = decode w := by
  rw [h, BitVec.and_zero, BitVec.xor_zero]

/-- Settles O5: the mask of unread bits meets no field of the row, so the changed word has the same fields. -/
theorem unreadBitsAreIgnored : Obligations.UnreadBitsAreIgnored := by
  intro w x
  obtain ⟨op, h⟩ := exists_opcode w
  cases op with
  | add =>
    cases hmode : w.getLsbD 5 with
    | true => exact decode_unread_of_none x (by rw [decode_of_addImm h hmode]; rfl)
    | false =>
      rw [decode_of_addReg h hmode, unreadBits, decode_of_addReg ((extract_xor_and rfl).trans h)
        ((getLsbD_xor_and rfl).trans hmode), drField, srField, sr2Field, extract_xor_and rfl, extract_xor_and rfl,
        extract_xor_and rfl]
      rfl
  | and =>
    cases hmode : w.getLsbD 5 with
    | true => exact decode_unread_of_none x (by rw [decode_of_andImm h hmode]; rfl)
    | false =>
      rw [decode_of_andReg h hmode, unreadBits, decode_of_andReg ((extract_xor_and rfl).trans h)
        ((getLsbD_xor_and rfl).trans hmode), drField, srField, sr2Field, extract_xor_and rfl, extract_xor_and rfl,
        extract_xor_and rfl]
      rfl
  | not =>
    rw [decode_of_not h, unreadBits, decode_of_not ((extract_xor_and rfl).trans h), drField, srField,
      extract_xor_and rfl, extract_xor_and rfl]
    rfl
  | jsr =>
    cases hmode : w.getLsbD 11 with
    | true => exact decode_unread_of_none x (by rw [decode_of_jsr h hmode]; rfl)
    | false =>
      rw [decode_of_jsrr h hmode, unreadBits, decode_of_jsrr ((extract_xor_and rfl).trans h)
        ((getLsbD_xor_and rfl).trans hmode), srField, extract_xor_and rfl]
      rfl
  | jmp =>
    rw [decode_of_jmp h, unreadBits_decodeJmp, decode_of_jmp ((extract_xor_and rfl).trans h), srField,
      extract_xor_and rfl]
    rfl
  | trap =>
    rw [decode_of_trap h, unreadBits_decodeTrap, decode_of_trap ((extract_xor_and rfl).trans h), vect8Field,
      extract_xor_and rfl]
    rfl
  | rti =>
    rw [decode_of_rti h]
    exact decode_of_rti ((extract_xor_and rfl).trans h)
  | res =>
    rw [decode_of_res h]
    exact decode_of_res ((extract_xor_and rfl).trans h)
  | br => exact decode_unread_of_none x (by rw [decode_of_br h, unreadBits_decodeBr])
  | ld => exact decode_unread_of_none x (by rw [decode_of_ld h]; rfl)
  | st => exact decode_unread_of_none x (by rw [decode_of_st h]; rfl)
  | ldr => exact decode_unread_of_none x (by rw [decode_of_ldr h]; rfl)
  | str => exact decode_unread_of_none x (by rw [decode_of_str h]; rfl)
  | ldi => exact decode_unread_of_none x (by rw [decode_of_ldi h]; rfl)
  | sti => exact decode_unread_of_none x (by rw [decode_of_sti h]; rfl)
  | lea => exact decode_unread_of_none x (by rw [decode_of_lea h]; rfl)

/-! ### The fields of a word make the word again (R63) -/

section
variable {w : Word} {op : Opcode}

theorem wordPC9_of_fields (h : opcodeField w = op.field) :
    wordPC9 op (.ofField (drField w)) (off9Field w) = w &&& 0xFFFF := by
  rw [wordPC9, ← h, Reg.field_ofField, opcodeField, drField, off9Field, atBit_extract, atBit_extract, atBit_extract,
    mask_or, mask_or]
  rfl

theorem wordBase6_of_fields (h : opcodeField w = op.field) :
    wordBase6 op (.ofField (drField w)) (.ofField (srField w)) (off6Field w) = w &&& 0xFFFF := by
  rw [wordBase6, ← h, Reg.field_ofField, Reg.field_ofField, opcodeField, drField, srField, off6Field, atBit_extract,
    atBit_extract, atBit_extract, atBit_extract, mask_or, mask_or, mask_or]
  rfl

theorem wordOpImm_of_fields (h : opcodeField w = op.field) (hmode : w.getLsbD 5 = true) :
    wordOpImm op (.ofField (drField w)) (.ofField (srField w)) (imm5Field w) = w &&& 0xFFFF := by
  have hbit : atBit 5 1#1 = w &&& atBit 5 (BitVec.allOnes 1) := by rw [← atBit_getLsbD, hmode]; rfl
  rw [wordOpImm, ← h, hbit, Reg.field_ofField, Reg.field_ofField, opcodeField, drField, srField, imm5Field,
    atBit_extract, atBit_extract, atBit_extract, atBit_extract, mask_or, mask_or, mask_or, mask_or]
  rfl

theorem wordOpReg_of_fields (h : opcodeField w = op.field) (hmode : w.getLsbD 5 = false) :
    wordOpReg op (.ofField (drField w)) (.ofField (srField w)) (.ofField (sr2Field w)) = w &&& 0xFFE7 := by
  have hbit : 0#16 = w &&& atBit 5 (BitVec.allOnes 1) := by rw [← atBit_getLsbD, hmode]; rfl
  rw [wordOpReg, ← h, Reg.field_ofField, Reg.field_ofField, Reg.field_ofField, opcodeField, drField, srField,
    sr2Field, atBit_extract, atBit_extract, atBit_extract, atBit_extract, mask_or, mask_or, mask_or,
    ← BitVec.or_zero (x := w &&& _), hbit, mask_or]
  rfl

theorem wordNot_of_fields (h : opcodeField w = Opcode.not.field) :
    wordNot (.ofField (drField w)) (.ofField (srField w)) = w &&& 0xFFC0 ||| 0x003F := by
  rw [wordNot, ← h, Reg.field_ofField, Reg.field_ofField, opcodeField, drField, srField, atBit_extract,
    atBit_extract, atBit_extract, mask_or, mask_or]
  rfl

theorem wordBr_of_fields (h : opcodeField w = Opcode.br.field) :
    wordBr (w.getLsbD 11) (w.getLsbD 10) (w.getLsbD 9) (off9Field w) = w &&& 0xFFFF := by
  rw [wordBr, ← h, opcodeField, off9Field, atBit_getLsbD, atBit_getLsbD, atBit_getLsbD, atBit_extract, atBit_extract,
    mask_or, mask_or, mask_or, mask_or]
  rfl

theorem wordJmp_of_fields (h : opcodeField w = Opcode.jmp.field) : wordJmp (.ofField (srField w)) = w &&& 0xF1C0 := by
  rw [wordJmp, ← h, Reg.field_ofField, opcodeField, srField, atBit_extract, atBit_extract, mask_or]
  rfl

theorem wordJsr_of_fields (h : opcodeField w = Opcode.jsr.field) (hmode : w.getLsbD 11 = true) :
    wordJsr (off11Field w) = w &&& 0xFFFF := by
  have hbit : atBit 11 1#1 = w &&& atBit 11 (BitVec.allOnes 1) := by rw [← atBit_getLsbD, hmode]; rfl
  rw [wordJsr, ← h, hbit, opcodeField, off11Field, atBit_extract, atBit_extract, mask_or, mask_or]
  rfl

theorem wordJsrr_of_fields (h : opcodeField w = Opcode.jsr.field) (hmode : w.getLsbD 11 = false) :
    wordJsrr (.ofField (srField w)) = w &&& 0xF9C0 := by
  have hbit : 0#16 = w &&& atBit 11 (BitVec.allOnes 1) := by rw [← atBit_getLsbD, hmode]; rfl
  rw [wordJsrr, ← h, Reg.field_ofField, opcodeField, srField, atBit_extract, atBit_extract, mask_or,
    ← BitVec.or_zero (x := w &&& _), hbit, mask_or]
  rfl

theorem wordTrap_of_fields (h : opcodeField w = Opcode.trap.field) : wordTrap (vect8Field w) = w &&& 0xF0FF := by
  rw [wordTrap, ← h, opcodeField, vect8Field, atBit_extract, atBit_extract, mask_or]
  rfl

theorem wordRsv_of_fields (h : opcodeField w = op.field) : wordRsv op = w &&& 0xF000 := by
  rw [wordRsv, ← h, opcodeField, atBit_extract]
  rfl

end

theorem encode_decodeBr (n z p : Bool) (off9 : BitVec 9) : encode (decodeBr n z p off9) = wordBr n z p off9 := by
  unfold decodeBr
  split
  · rfl
  · next h =>
    obtain ⟨⟨rfl, rfl⟩, rfl⟩ : (n = false ∧ z = false) ∧ p = false := by
      simpa only [Bool.not_eq_true, Bool.or_eq_false_iff] using h
    rfl

theorem encode_decodeJmp (base : Reg) : encode (decodeJmp base) = wordJmp base := by
  unfold decodeJmp
  split
  · next h => rw [h]; rfl
  · rfl

theorem encode_decodeTrap (v : BitVec 8) : encode (decodeTrap v) = wordTrap v := by
  unfold decodeTrap
  split_ifs <;> subst_vars <;> rfl

/-- A mask that covers the read bits of a format picks all of them (R69). -/
theorem agree_on_read {w v m u : Word} (hv : v = w &&& m) (hm : m &&& ~~~u = ~~~u) : v &&& ~~~u = w &&& ~~~u := by
  rw [hv, BitVec.and_assoc, hm]

/-- Settles O4: each format's word is its fields, so what the decoder read is put back at its bits. -/
theorem encodeInvertsDecodeOnReadBits : Obligations.EncodeInvertsDecodeOnReadBits := by
  intro w
  obtain ⟨op, h⟩ := exists_opcode w
  cases op with
  | br =>
    rw [decode_of_br h, encode_decodeBr, unreadBits_decodeBr]
    exact agree_on_read (wordBr_of_fields h) rfl
  | jmp =>
    rw [decode_of_jmp h, encode_decodeJmp, unreadBits_decodeJmp]
    exact agree_on_read (wordJmp_of_fields h) rfl
  | trap =>
    rw [decode_of_trap h, encode_decodeTrap, unreadBits_decodeTrap]
    exact agree_on_read (wordTrap_of_fields h) rfl
  | add =>
    cases hmode : w.getLsbD 5 with
    | false => rw [decode_of_addReg h hmode, unreadBits]; exact agree_on_read (wordOpReg_of_fields h hmode) rfl
    | true => rw [decode_of_addImm h hmode, unreadBits]; exact agree_on_read (wordOpImm_of_fields h hmode) rfl
  | and =>
    cases hmode : w.getLsbD 5 with
    | false => rw [decode_of_andReg h hmode, unreadBits]; exact agree_on_read (wordOpReg_of_fields h hmode) rfl
    | true => rw [decode_of_andImm h hmode, unreadBits]; exact agree_on_read (wordOpImm_of_fields h hmode) rfl
  | jsr =>
    cases hmode : w.getLsbD 11 with
    | false => rw [decode_of_jsrr h hmode, unreadBits]; exact agree_on_read (wordJsrr_of_fields h hmode) rfl
    | true => rw [decode_of_jsr h hmode, unreadBits]; exact agree_on_read (wordJsr_of_fields h hmode) rfl
  | not =>
    rw [decode_of_not h, unreadBits, encode, wordNot_of_fields h, Laws.or_mask, agree_on_read rfl rfl]
    exact BitVec.or_zero
  | ld => rw [decode_of_ld h, unreadBits]; exact agree_on_read (wordPC9_of_fields h) rfl
  | st => rw [decode_of_st h, unreadBits]; exact agree_on_read (wordPC9_of_fields h) rfl
  | ldi => rw [decode_of_ldi h, unreadBits]; exact agree_on_read (wordPC9_of_fields h) rfl
  | sti => rw [decode_of_sti h, unreadBits]; exact agree_on_read (wordPC9_of_fields h) rfl
  | lea => rw [decode_of_lea h, unreadBits]; exact agree_on_read (wordPC9_of_fields h) rfl
  | ldr => rw [decode_of_ldr h, unreadBits]; exact agree_on_read (wordBase6_of_fields h) rfl
  | str => rw [decode_of_str h, unreadBits]; exact agree_on_read (wordBase6_of_fields h) rfl
  | rti => rw [decode_of_rti h, unreadBits]; exact agree_on_read (wordRsv_of_fields h) rfl
  | res => rw [decode_of_res h, unreadBits]; exact agree_on_read (wordRsv_of_fields h) rfl

end Sys2Proof
end

section
/-! PROOFS. What every instruction may change (10_state.md R22, R23, R28, 20_memory.md R44, 60_exceptions.md R200,
R201, R214): one frame, kept by each operation on the state that an instruction is made of, hence by `exec`, and
the frame of a whole step. -/
namespace Sys2Proof.Machine

/-! ### The frame of an instruction -/

/-- The run status an instruction's own effect can set (R28, R200). -/
def MayStop (i : Instr) : Status → Prop
  | .running => False
  | .halted => i = .halt ∨ i = .trap 0x25
  | .fatal (.unsupportedOpcode op) => (i = .rti ∧ op = 0x8) ∨ (i = .res ∧ op = 0xD)
  | .fatal (.unknownTrapVector v) => i = .trap v ∧ (v.toNat < 0x20 ∨ 0x25 < v.toNat)
  | .fatal .pcOutOfRange => False
  | .fatal .ioError => mayFailIo i = true

/-- The cells the accesses of an instruction leave (R44): all of them, or all but the keyboard's two. -/
def CellsFrame (shape : AccessShape) (s t : State) : Prop :=
  (shape = .untouched → CellsKept [] s t) ∧ (shape = .reading → CellsKept [kbsr, kbdr] s t)

/-- What is so after an instruction that answers next. -/
structure ExecFrame (i : Instr) (s t : State) : Prop where
  regs : RegsKept (destination i).toList s t
  pc : transfersControl i = false → t.pc = s.pc
  cond : t.cond = s.cond ∨ ∃ v, t.cond = condOf v
  cells : CellsFrame (accessShape i) s t
  status : t.status = s.status ∨ MayStop i t.status
  wf : s.mem.wf = true → t.mem.wf = true
  input : t.host.input <:+ s.host.input
  output : s.host.output <+: t.host.output

theorem cellsFrame_of_mem {s t : State} (shape : AccessShape) (h : t.mem = s.mem) : CellsFrame shape s t :=
  ⟨fun _ a _ => congrArg (·.read a) h, fun _ a _ => congrArg (·.read a) h⟩

theorem cellsFrame_of_keyboard {shape : AccessShape} {s t : State} (hs : shape ≠ .untouched)
    (h : ∀ a, a ≠ kbsr → a ≠ kbdr → t.cell a = s.cell a) : CellsFrame shape s t :=
  ⟨fun hu => absurd hu hs, fun _ a ha => h a (List.ne_of_not_mem_cons ha)
    (List.ne_of_not_mem_cons (List.not_mem_of_not_mem_cons ha))⟩

theorem CellsFrame.trans {shape : AccessShape} {s t u : State} (h : CellsFrame shape s t)
    (k : CellsFrame shape t u) : CellsFrame shape s u :=
  ⟨fun hs a ha => (k.1 hs a ha).trans (h.1 hs a ha), fun hs a ha => (k.2 hs a ha).trans (h.2 hs a ha)⟩

/-! ### The operations that keep the frame -/

theorem ExecFrame.refl (i : Instr) (s : State) : ExecFrame i s s :=
  ⟨fun _ _ => rfl, fun _ => rfl, .inl rfl, cellsFrame_of_mem _ rfl, .inl rfl, id, List.suffix_rfl, List.prefix_rfl⟩

section
variable {i : Instr} {s t u : State}

theorem ExecFrame.setReg {r : Reg} (h : ExecFrame i s t) (hd : destination i = some r) (v : Word) :
    ExecFrame i s (t.setReg r v) where
  regs q hq := by
    have hne : q ≠ r := by rintro rfl; simp [hd] at hq
    exact (State.setReg_reg_other t v hne).trans (h.regs q hq)
  pc := h.pc
  cond := h.cond
  cells := h.cells
  status := h.status
  wf := h.wf
  input := h.input
  output := h.output

theorem ExecFrame.setcc (h : ExecFrame i s t) (v : Word) : ExecFrame i s (setcc v t) :=
  ⟨h.regs, h.pc, .inr ⟨v, rfl⟩, h.cells, h.status, h.wf, h.input, h.output⟩

theorem ExecFrame.writeResult {dr : Reg} (h : ExecFrame i s t) (hd : destination i = some dr) (v : Word) :
    ExecFrame i s (writeResult dr v t) := (h.setReg hd v).setcc v

theorem ExecFrame.setPc (h : ExecFrame i s t) (ht : transfersControl i = true) (v : Word) :
    ExecFrame i s (t.setPc v) :=
  ⟨h.regs, fun hf => absurd (ht.symm.trans hf) (by decide), h.cond, h.cells, h.status, h.wf, h.input, h.output⟩

theorem ExecFrame.setStatus {st : Status} (h : ExecFrame i s t) (hst : MayStop i st) :
    ExecFrame i s (t.setStatus st) :=
  ⟨h.regs, h.pc, h.cond, h.cells, .inr hst, h.wf, h.input, h.output⟩

theorem ExecFrame.memWrite (h : ExecFrame i s t) (ha : accessShape i = .storing) (a v : Word) :
    ExecFrame i s (memWrite a v t) :=
  ⟨h.regs, h.pc, h.cond, ⟨fun hs => absurd (ha.symm.trans hs) (by decide),
    fun hs => absurd (ha.symm.trans hs) (by decide)⟩, h.status, fun hw => memWrite_wf a v t (h.wf hw), h.input,
    h.output⟩

theorem ExecFrame.afterRead (h : ExecFrame i s t) (ha : accessShape i ≠ .untouched) (k : ReadFrame t u) :
    ExecFrame i s u where
  regs q hq := (congrArg (·.read q) k.regs).trans (h.regs q hq)
  pc hf := k.pc.trans (h.pc hf)
  cond := k.cond ▸ h.cond
  cells := h.cells.trans (cellsFrame_of_keyboard ha k.cells)
  status := k.status ▸ h.status
  wf hw := k.wf (h.wf hw)
  input := k.input.trans h.input
  output := k.output ▸ h.output

/-- A read and what goes on after it: a fatal read ends the instruction with its IoError (R127). -/
theorem ExecFrame.read {a : Word} {k : Word → State → Host.Outcome State Fault Refusal} (h : ExecFrame i s t)
    (ha : accessShape i ≠ .untouched) (hio : mayFailIo i = true)
    (hk : ∀ v t', ExecFrame i s t' → k v t' = .next u → ExecFrame i s u)
    (hu : (memRead a t).andThen k = .next u) : ExecFrame i s u := by
  obtain ⟨v, t', hread, hnext⟩ | ⟨r, t', hread, rfl⟩ := Effect.andThen_next hu
  · exact hk v t' (h.afterRead ha (memRead_done_frame hread)) hnext
  · obtain ⟨-, rfl, -, hf⟩ := memRead_fatal_frame hread
    exact (h.afterRead ha hf).setStatus hio

/-- A read whose word goes into DR: the end of LD, LDR and LDI. -/
theorem ExecFrame.load {a : Word} {dr : Reg} (h : ExecFrame i s t) (hd : destination i = some dr)
    (ha : accessShape i ≠ .untouched) (hio : mayFailIo i = true)
    (hu : ((memRead a t).andThen fun v t' => .next (Machine.writeResult dr v t')) = .next u) : ExecFrame i s u :=
  h.read ha hio (fun v t' hf hk => by cases hk; exact hf.writeResult hd v) hu

/-! ### The routines -/

theorem ExecFrame.ofRoutine (h : RoutineFrame s t) (hr : destination i = some .r0 ∨ t.regs = s.regs)
    (hc : CellsFrame (accessShape i) s t) (hio : mayFailIo i = true) : ExecFrame i s t where
  regs q hq := by
    obtain hd | hregs := hr
    · exact h.regs q (by rintro rfl; simp [hd] at hq)
    · exact congrArg (·.read q) hregs
  pc _ := h.pc
  cond := .inl h.cond
  cells := hc
  status := h.status.imp_right fun he => by rw [he]; exact hio
  wf := h.wf
  input := h.input
  output := h.output

theorem routineGetc_execFrame (hd : destination i = some .r0) (hio : mayFailIo i = true)
    (h : routineGetc s = .next t) : ExecFrame i s t :=
  .ofRoutine (routineGetc_frame h).1 (.inl hd) (cellsFrame_of_mem _ (routineGetc_frame h).2) hio

theorem routineIn_execFrame (hd : destination i = some .r0) (hio : mayFailIo i = true)
    (h : routineIn s = .next t) : ExecFrame i s t :=
  .ofRoutine (routineIn_frame h).1 (.inl hd) (cellsFrame_of_mem _ (routineIn_frame h).2) hio

theorem routineOut_execFrame (hio : mayFailIo i = true) (h : routineOut s = .next t) : ExecFrame i s t := by
  cases h
  obtain ⟨hf, hregs, hmem⟩ := settleWrite_frame (lowByte (s.reg .r0)) s
  exact .ofRoutine hf (.inr hregs) (cellsFrame_of_mem _ hmem) hio

theorem routinePuts_execFrame (ha : accessShape i ≠ .untouched) (hio : mayFailIo i = true)
    (h : routinePuts s = .next t) : ExecFrame i s t := by
  obtain ⟨hf, hregs⟩ := putsLoop_frame h
  exact .ofRoutine hf (.inr hregs) (cellsFrame_of_keyboard ha hf.cells) hio

theorem routinePutsp_execFrame (ha : accessShape i ≠ .untouched) (hio : mayFailIo i = true)
    (h : routinePutsp s = .next t) : ExecFrame i s t := by
  obtain ⟨hf, hregs⟩ := putspLoop_frame h
  exact .ofRoutine hf (.inr hregs) (cellsFrame_of_keyboard ha hf.cells) hio

theorem routineHalt_execFrame (hi : MayStop i .halted) (h : routineHalt s = .next t) : ExecFrame i s t := by
  cases h
  exact (ExecFrame.refl i s).setStatus hi

theorem execTrap_execFrame {v : BitVec 8} (h : execTrap v s = .next t) : ExecFrame (.trap v) s t := by
  unfold execTrap at h
  split_ifs at h with h20 h21 h22 h23 h24 h25
  · subst h20
    exact routineGetc_execFrame rfl rfl h
  · subst h21
    exact routineOut_execFrame rfl h
  · subst h22
    exact routinePuts_execFrame (by decide) rfl h
  · subst h23
    exact routineIn_execFrame rfl rfl h
  · subst h24
    exact routinePutsp_execFrame (by decide) rfl h
  · subst h25
    exact routineHalt_execFrame (.inr rfl) h
  · cases h
    exact (ExecFrame.refl _ s).setStatus ⟨rfl, vector_outside_of_ne h20 h21 h22 h23 h24 h25⟩

/-! ### Every instruction keeps the frame -/

/-- A branch that names no flag is not taken (R110). -/
theorem branchIf_no_flag (off9 : BitVec 9) (s : State) : branchIf false false false off9 s = s := by
  have hnever : branchTaken false false false s.cond = false := by cases s.cond <;> rfl
  rw [branchIf, hnever, if_neg (by decide)]

theorem exec_frame (h : exec i s = .next t) : ExecFrame i s t := by
  have hrefl := ExecFrame.refl i s
  cases i with
  | addReg | addImm | andReg | andImm | not | lea =>
    cases h
    exact hrefl.writeResult rfl _
  | br n z p off9 =>
    cases h
    unfold branchIf
    split
    · exact hrefl.setPc rfl _
    · exact hrefl
  | nop off9 =>
    cases h
    rwa [branchIf_no_flag]
  | jmp | ret =>
    cases h
    exact hrefl.setPc rfl _
  | jsr | jsrr =>
    cases h
    exact (hrefl.setReg rfl _).setPc rfl _
  | ld | ldr => exact hrefl.load rfl (by simp [accessShape]) rfl h
  | ldi =>
    exact hrefl.read (by simp [accessShape]) rfl
      (fun p s' hf hk => hf.load rfl (by simp [accessShape]) rfl hk) h
  | st | str =>
    cases h
    exact hrefl.memWrite rfl _ _
  | sti =>
    exact hrefl.read (by simp [accessShape]) rfl (fun p s' hf hk => by cases hk; exact hf.memWrite rfl _ _) h
  | rti =>
    cases h
    exact hrefl.setStatus (.inl ⟨rfl, rfl⟩)
  | res =>
    cases h
    exact hrefl.setStatus (.inr ⟨rfl, rfl⟩)
  | trap => exact execTrap_execFrame h
  | getc => exact routineGetc_execFrame rfl rfl h
  | out => exact routineOut_execFrame rfl h
  | puts => exact routinePuts_execFrame (by decide) rfl h
  | in_ => exact routineIn_execFrame rfl rfl h
  | putsp => exact routinePutsp_execFrame (by decide) rfl h
  | halt => exact routineHalt_execFrame (.inl rfl) h

end

/-- Settles O44: the registers of the frame. -/
theorem onlyTheNamedRegisterIsWritten : Obligations.OnlyTheNamedRegisterIsWritten := by
  intro i s t h
  exact (exec_frame h).regs

/-- Settles O45: the PC of the frame. -/
theorem onlyTransfersWritePc : Obligations.OnlyTransfersWritePc := by
  intro i s t ht h
  exact (exec_frame h).pc ht

/-- Settles O46: the cells of the frame. -/
theorem memoryChangesByStoresAndPollsAlone : Obligations.MemoryChangesByStoresAndPollsAlone := by
  intro i s t h
  exact (exec_frame h).cells

/-- Settles O43: the status of the frame, from a running state. -/
theorem everyStopHasItsCause : Obligations.EveryStopHasItsCause := by
  intro i s t hr h
  have hstop {st : Status} (ht : t.status = st) (hst : st ≠ .running) : MayStop i st := by
    obtain hkept | hmay := (exec_frame h).status
    · exact absurd (ht.symm.trans (hkept.trans hr)) hst
    · exact ht ▸ hmay
  exact ⟨fun ht => hstop ht (by decide), fun op ht => hstop ht (by simp), fun v ht => hstop ht (by simp),
    fun ht => hstop ht (by decide), fun ht => hstop ht (by decide)⟩

/-! ### The frame of a step -/

theorem fetch_done_frame {s t : State} {w : Word} (h : fetch s = .done w t) :
    ∃ s', ReadFrame s s' ∧ t = s'.setPc (s.pc + 1) := by
  obtain ⟨v, s', hread, -, hf⟩ | ⟨v, s', -, -, hf⟩ | ⟨s', -, hf⟩ | ⟨-, hf⟩ := fetch_cases s <;> rw [hf] at h <;> cases h
  exact ⟨s', memRead_done_frame hread, rfl⟩

theorem fetch_fatal_frame {s t : State} {r : FatalReason} (h : fetch s = .fatal r t) :
    ReadFrame s t ∧ (r = .ioError ∨ r = .pcOutOfRange ∧ s.pc = topAddress) := by
  obtain ⟨v, s', -, -, hf⟩ | ⟨v, s', hread, htop, hf⟩ | ⟨s', hread, hf⟩ | ⟨-, hf⟩ := fetch_cases s <;>
    rw [hf] at h <;> cases h
  · exact ⟨memRead_done_frame hread, .inr ⟨rfl, htop⟩⟩
  · obtain ⟨-, -, -, hframe⟩ := memRead_fatal_frame hread
    exact ⟨hframe, .inl rfl⟩

/-- What is so after a step that answers next. -/
structure StepFrame (s t : State) : Prop where
  cond : t.cond = s.cond ∨ ∃ v, t.cond = condOf v
  sound : t.status.sound t.pc = true
  wf : s.mem.wf = true → t.mem.wf = true
  input : t.host.input <:+ s.host.input
  output : s.host.output <+: t.host.output

/-- A stop that an instruction sets is one the spec gives (R200), whatever PC holds. -/
theorem MayStop.sound {i : Instr} {st : Status} (h : MayStop i st) (pc : Word) : st.sound pc = true := by
  match st with
  | .running | .halted | .fatal .ioError => rfl
  | .fatal .pcOutOfRange => exact h.elim
  | .fatal (.unsupportedOpcode op) => obtain ⟨-, rfl⟩ | ⟨-, rfl⟩ := h <;> rfl
  | .fatal (.unknownTrapVector v) =>
    obtain ⟨-, hv⟩ := h
    rw [Status.sound, (isRoutineVector_eq_false_iff v).mpr hv]
    rfl

theorem step_frame {s t : State} (h : step s = .next t) : StepFrame s t := by
  obtain ⟨hr, ⟨w, s', hfetch, hexec⟩ | ⟨r, s', hfetch, rfl⟩⟩ := step_cases h
  · obtain ⟨u, hread, rfl⟩ := fetch_done_frame hfetch
    have hf := exec_frame hexec
    refine ⟨hread.cond ▸ hf.cond, ?_, fun hw => hf.wf (hread.wf hw), hf.input.trans hread.input,
      hread.output ▸ hf.output⟩
    obtain hkept | hstop := hf.status
    · rw [hkept, State.setPc_status, hread.status, hr]
      rfl
    · exact hstop.sound t.pc
  · obtain ⟨hread, hreason⟩ := fetch_fatal_frame hfetch
    refine ⟨.inl hread.cond, ?_, hread.wf, hread.input, hread.output ▸ List.prefix_rfl⟩
    obtain rfl | ⟨rfl, htop⟩ := hreason
    · rfl
    · exact decide_eq_true (hread.pc.trans htop)

/-- Settles O55: the output of the step's frame. -/
theorem outputOnlyGrows : Obligations.OutputOnlyGrows := by
  intro s t h
  exact (step_frame h).output

/-- Settles O56: the input of the step's frame. -/
theorem inputIsTakenInOrder : Obligations.InputIsTakenInOrder := by
  intro s t h
  exact (step_frame h).input

theorem condOf_ne_none (v : Word) : condOf v ≠ .none := by
  unfold condOf
  split_ifs <;> decide

/-- Settles O10: a step keeps COND or sets it by `setcc`, which always sets a flag. -/
theorem noFlagIsNeverProducedAgain : Obligations.NoFlagIsNeverProducedAgain := by
  intro s t h hs
  obtain hkept | ⟨v, hv⟩ := (step_frame h).cond
  · exact hkept ▸ hs
  · exact hv ▸ condOf_ne_none v

/-! ### The invariant -/

theorem State.inv_iff (s : State) : s.inv = true ↔ s.mem.wf = true ∧ s.status.sound s.pc = true :=
  Bool.and_eq_true_iff

/-- Settles O57: a step keeps memory canonical, and whatever status it leaves is sound. -/
theorem stepKeepsTheInvariant : Obligations.StepKeepsTheInvariant := by
  intro s t hs h
  obtain ⟨hwf, -⟩ := s.inv_iff.mp hs
  exact t.inv_iff.mpr ⟨(step_frame h).wf hwf, (step_frame h).sound⟩

/-- Settles O58: the empty memory is canonical and the status is Running. -/
theorem resetMeetsTheInvariant : Obligations.ResetMeetsTheInvariant :=
  State.reset.inv_iff.mpr ⟨State.reset_mem_wf, rfl⟩

theorem placeWords_wf (ws : List Word) (a : Word) {m : Memory} (h : m.wf = true) :
    (placeWords ws a m).wf = true := by
  induction ws generalizing a m with
  | nil => exact h
  | cons w rest ih => exact ih (a + 1) (Memory.wf_write a w h)

/-- An image that boots gives the reset state with the image's words placed (R243). -/
theorem boot_next {image : List Byte} {s : State} (h : boot image = .next s) :
    ∃ origin ws, s = { State.reset with mem := placeWords ws origin State.reset.mem } := by
  unfold boot at h
  split at h
  · cases h
  · cases h
  · next origin ws _ =>
    split at h
    · cases h
      exact ⟨origin, ws, rfl⟩
    · cases h

theorem Reaches.inv {s t : State} (h : Reaches s t) (hs : s.inv = true) : t.inv = true := by
  induction h with
  | refl => exact hs
  | tail _ hstep ih => exact stepKeepsTheInvariant _ _ ih hstep

/-- Settles O59: the booted state meets the invariant whatever its host, and every step keeps it. -/
theorem everyReachableStateMeetsTheInvariant : Obligations.EveryReachableStateMeetsTheInvariant := by
  intro image h s t hboot hreach
  obtain ⟨origin, ws, rfl⟩ := boot_next hboot
  exact hreach.inv ((State.inv_iff _).mpr ⟨placeWords_wf ws origin State.reset_mem_wf, rfl⟩)

end Sys2Proof.Machine
end

section
/-! PROOFS. The host's one input stream, and the reads and writes of memory (20_memory.md R40-R43, 60_exceptions.md
R214): what each operation answers, from what the host answers. -/
namespace Sys2Proof.Machine

/-! ### Each byte of the stream is delivered once (D8, D16) -/

theorem HostLink.takeByte_input (h : HostLink) :
    h.input = h.takeByte.1 :: h.takeByte.2.input ∨ (h.input = [] ∧ h.takeByte.2.input = []) := by
  unfold HostLink.takeByte
  split
  · next b rest heq => exact .inl heq
  · next heq => exact .inr ⟨heq, heq⟩

/-- A poll that is answered has drawn a kind of answer, which leaves the input, and answers by it. -/
theorem hostPoll_some {h h' : HostLink} {a : PollAnswer} (hp : hostPoll h = some (a, h')) :
    ∃ k, ∃ drawn : HostLink, drawn.input = h.input ∧ drawn.answerPoll k = (a, h') := by
  obtain ⟨hi, -⟩ := h.drawPoll_streams
  unfold hostPoll at hp
  split at hp
  · next k drawn heq => exact ⟨k, drawn, by rw [heq] at hi; exact hi, Option.some.inj hp⟩
  · cases hp

/-- As for a poll. -/
theorem hostGetByte_some {h h' : HostLink} {a : GetAnswer} (hg : hostGetByte h = some (a, h')) :
    ∃ k, ∃ drawn : HostLink, drawn.input = h.input ∧ drawn.answerRead k = (a, h') := by
  obtain ⟨hi, -⟩ := h.drawRead_streams
  unfold hostGetByte at hg
  split at hg
  · next k drawn heq => exact ⟨k, drawn, by rw [heq] at hi; exact hi, Option.some.inj hg⟩
  · cases hg

/-- Settles O54: an answer with a byte takes it from the front of the stream, any other answer leaves the
stream. -/
theorem eachInputByteIsDeliveredOnce : Obligations.EachInputByteIsDeliveredOnce := by
  intro h h'
  refine ⟨fun b hp => ?present, fun hp => ?absent, fun hp => ?pollFails, fun b hg => ?byte, fun hg => ?readFails,
    fun b => (hostPutByte_cases b h).1⟩
  case present =>
    obtain ⟨k, drawn, hi, ha⟩ := hostPoll_some hp
    cases k <;> cases ha
    exact hi ▸ drawn.takeByte_input
  case absent | pollFails =>
    obtain ⟨k, drawn, hi, ha⟩ := hostPoll_some hp
    cases k <;> cases ha
    exact hi
  case byte =>
    obtain ⟨k, drawn, hi, ha⟩ := hostGetByte_some hg
    cases k <;> cases ha
    exact hi ▸ drawn.takeByte_input
  case readFails =>
    obtain ⟨k, drawn, hi, ha⟩ := hostGetByte_some hg
    cases k <;> cases ha
    exact hi

/-! ### A read of 0xFE00, by the host's answer (R42) -/

section
variable {s : State} {h : HostLink}

theorem memRead_kbsr_present {b : Byte} (hp : hostPoll s.host = some (.present b, h)) :
    memRead kbsr s = .done 0x8000 (memWrite kbdr (zext8 b) (memWrite kbsr 0x8000 (s.setHost h))) := by
  obtain ⟨b', h', hp', hm⟩ | ⟨h', hp', hm⟩ | ⟨h', hp', hm⟩ | ⟨hp', hm⟩ := memRead_kbsr_cases s <;> cases hp.symm.trans hp'
  exact hm

theorem memRead_kbsr_absent (hp : hostPoll s.host = some (.absent, h)) :
    memRead kbsr s = .done 0x0000 (memWrite kbsr 0x0000 (s.setHost h)) := by
  obtain ⟨b', h', hp', hm⟩ | ⟨h', hp', hm⟩ | ⟨h', hp', hm⟩ | ⟨hp', hm⟩ := memRead_kbsr_cases s <;> cases hp.symm.trans hp'
  exact hm

theorem memRead_kbsr_fail (hp : hostPoll s.host = some (.fail, h)) :
    memRead kbsr s = .fatal .ioError (s.setHost h) := by
  obtain ⟨b', h', hp', hm⟩ | ⟨h', hp', hm⟩ | ⟨h', hp', hm⟩ | ⟨hp', hm⟩ := memRead_kbsr_cases s <;> cases hp.symm.trans hp'
  exact hm

theorem memRead_kbsr_silent (hp : hostPoll s.host = none) : memRead kbsr s = .stuck .hostSilent := by
  obtain ⟨b', h', hp', hm⟩ | ⟨h', hp', hm⟩ | ⟨h', hp', hm⟩ | ⟨hp', hm⟩ := memRead_kbsr_cases s <;> cases hp.symm.trans hp'
  exact hm

end

/-- The cells after a poll that found a byte. -/
theorem presentCells (b : Byte) (s : State) :
    (memWrite kbdr (zext8 b) (memWrite kbsr 0x8000 s)).cell kbsr = 0x8000 ∧
    (memWrite kbdr (zext8 b) (memWrite kbsr 0x8000 s)).cell kbdr = zext8 b ∧
    CellsKept [kbsr, kbdr] s (memWrite kbdr (zext8 b) (memWrite kbsr 0x8000 s)) := by
  refine ⟨?_, memWrite_cell_same _ _ _, fun a ha => ?_⟩
  · rw [memWrite_cell_other _ _ (by decide), memWrite_cell_same]
  · simp only [List.mem_cons, List.not_mem_nil, or_false, not_or] at ha
    rw [memWrite_cell_other _ _ ha.2, memWrite_cell_other _ _ ha.1]

theorem memWrite_cellsKept (a v : Word) (s : State) : CellsKept [a] s (memWrite a v s) :=
  fun _ hb => memWrite_cell_other v s (List.ne_of_not_mem_cons hb)

theorem setHost_onlyHostChanged (h : HostLink) (s : State) : OnlyHostChanged h s (s.setHost h) :=
  ⟨s.setHost_host h, fun r _ => s.setHost_reg h r, fun a _ => s.setHost_cell h a, s.setHost_cond h, s.setHost_pc h,
    s.setHost_status h⟩

/-- Settles O21: a plain read away from 0xFE00, the poll's answer there. -/
theorem readsPollAtTheStatusCellAlone : Obligations.ReadsPollAtTheStatusCellAlone := by
  intro s
  refine ⟨fun a ha => memRead_plain s ha, fun b h hp => ?present, fun h hp => ?absent, fun h hp => ?fail,
    memRead_kbsr_silent⟩
  case present =>
    obtain ⟨hstatus, hdata, hkept⟩ := presentCells b (s.setHost h)
    exact ⟨_, memRead_kbsr_present hp, hstatus, hdata, hkept, fun _ _ => rfl, rfl, rfl, rfl, rfl⟩
  case absent =>
    exact ⟨_, memRead_kbsr_absent hp, memWrite_cell_same _ _ _, memWrite_cellsKept _ _ (s.setHost h), fun _ _ => rfl,
      rfl, rfl, rfl, rfl⟩
  case fail => exact ⟨_, memRead_kbsr_fail hp, setHost_onlyHostChanged h s⟩

theorem memWrite_cellWritten (a v : Word) (s : State) : CellWritten a v s (memWrite a v s) :=
  ⟨memWrite_cell_same a v s, memWrite_cellsKept a v s, fun r _ => memWrite_reg a v s r, memWrite_cond a v s,
    memWrite_pc a v s, memWrite_status a v s, memWrite_host a v s⟩

/-- Settles O22: `memWrite` with its frame. -/
theorem writeSetsOneCell : Obligations.WriteSetsOneCell := memWrite_cellWritten

end Sys2Proof.Machine
end

section
/-! PROOFS. Loads, stores and LEA (42_load_store.md R120-R127). -/
namespace Sys2Proof.Machine

/-! ### What each goes on with -/

section
variable (dr sr base : Reg) (off9 : BitVec 9) (off6 : BitVec 6) (s : State)

theorem exec_ld : exec (.ld dr off9) s =
    (memRead (s.pc + sext off9) s).andThen fun v s' => .next (writeResult dr v s') := rfl

theorem exec_ldr : exec (.ldr dr base off6) s =
    (memRead (s.reg base + sext off6) s).andThen fun v s' => .next (writeResult dr v s') := rfl

theorem exec_ldi : exec (.ldi dr off9) s = (memRead (s.pc + sext off9) s).andThen fun p s' =>
    (memRead p s').andThen fun v s'' => .next (writeResult dr v s'') := rfl

theorem exec_lea : exec (.lea dr off9) s = .next (writeResult dr (s.pc + sext off9) s) := rfl

theorem exec_st : exec (.st sr off9) s = .next (memWrite (pcRelative off9 s) (s.reg sr) s) := rfl

theorem exec_str : exec (.str sr base off6) s = .next (memWrite (baseOffset base off6 s) (s.reg sr) s) := rfl

theorem exec_sti : exec (.sti sr off9) s =
    (memRead (pcRelative off9 s) s).andThen fun p s' => .next (memWrite p (s'.reg sr) s') := rfl

end

/-- Settles O15: LEA goes on with one `writeResult`. -/
theorem leaWritesTheAddress : Obligations.LeaWritesTheAddress := by
  intro dr off9 s
  exact ⟨_, exec_lea dr off9 s, writeResult_resultWritten dr _ s⟩

/-- A read whose word goes into DR is a load from its address. -/
theorem load_loadedFrom (dr : Reg) (a : Word) (s : State) :
    LoadedFrom dr a s ((memRead a s).andThen fun v s' => .next (writeResult dr v s')) := by
  refine ⟨fun ha => ?plain, fun v s' hm => ?done, fun r s' hm => ?fatal, fun f hm => ?stuck⟩
  case plain =>
    rw [memRead_plain s ha, Effect.andThen_done]
    exact ⟨_, rfl, writeResult_resultWritten dr _ s⟩
  case done =>
    rw [hm, Effect.andThen_done]
    exact ⟨_, rfl, writeResult_resultWritten dr v s'⟩
  case fatal =>
    rw [hm, Effect.andThen_fatal]
    exact ⟨_, rfl, setStatus_onlyStatusChanged _ s'⟩
  case stuck => rw [hm, Effect.andThen_stuck]

/-- Settles O23: LD and LDR are one load, from two addresses. -/
theorem loadsWriteTheWordRead : Obligations.LoadsWriteTheWordRead := by
  intro dr base off9 off6 s
  rw [exec_ld, exec_ldr]
  exact ⟨load_loadedFrom dr _ s, load_loadedFrom dr _ s⟩

/-- Settles O24: after the pointer read LDI is the load of LD and LDR. -/
theorem ldiLoadsThroughThePointer : Obligations.LdiLoadsThroughThePointer := by
  intro dr off9 s
  rw [exec_ldi]
  refine ⟨fun ha => ?plain, fun p s' hm => ?done, fun r s' hm => ?fatal, fun f hm => ?stuck⟩
  case plain =>
    rw [memRead_plain s ha, Effect.andThen_done]
    exact load_loadedFrom dr _ s
  case done =>
    rw [hm, Effect.andThen_done]
    exact load_loadedFrom dr p s'
  case fatal =>
    rw [hm, Effect.andThen_fatal]
    exact ⟨_, rfl, setStatus_onlyStatusChanged _ s'⟩
  case stuck => rw [hm, Effect.andThen_stuck]

/-- Settles O25: ST and STR go on with one `memWrite`. -/
theorem storesWriteTheSourceRegister : Obligations.StoresWriteTheSourceRegister := by
  intro sr base off9 off6 s
  exact ⟨⟨_, exec_st sr off9 s, memWrite_cellWritten _ _ s⟩, ⟨_, exec_str sr base off6 s, memWrite_cellWritten _ _ s⟩,
    rfl, rfl⟩

/-- Settles O26: after the pointer read STI goes on with one `memWrite`; the read has kept SR. -/
theorem stiStoresThroughThePointer : Obligations.StiStoresThroughThePointer := by
  intro sr off9 s
  rw [exec_sti]
  refine ⟨fun ha => ?plain, fun p s' hm => ?done, fun r s' hm => ?fatal, fun f hm => ?stuck⟩
  case plain =>
    rw [memRead_plain s ha, Effect.andThen_done]
    exact ⟨_, rfl, memWrite_cellWritten _ _ s⟩
  case done =>
    have hsr : s'.reg sr = s.reg sr := congrArg (·.read sr) (memRead_done_frame hm).regs
    rw [hm, Effect.andThen_done, hsr]
    exact ⟨_, rfl, memWrite_cellWritten p _ s'⟩
  case fatal =>
    rw [hm, Effect.andThen_fatal]
    exact ⟨_, rfl, setStatus_onlyStatusChanged _ s'⟩
  case stuck => rw [hm, Effect.andThen_stuck]

/-- Settles O27: ST keeps PC, so LD reads the cell it has written. -/
theorem storeThenLoadReturnsTheWord : Obligations.StoreThenLoadReturnsTheWord := by
  intro sr dr off9 s t hst ha
  rw [exec_st] at hst
  cases hst
  rw [exec_ld, memWrite_pc, memRead_plain _ ha, Effect.andThen_done, pcRelative, memWrite_cell_same]
  exact ⟨_, rfl, writeResult_reg_same dr _ _, condOf_flagOf _⟩

/-- LD, LDR and LDI whose loaded address is 0xFE00 are one load from it. -/
theorem keyboardLoad_exec {i : Instr} {dr : Reg} {s : State}
    (hi : (∃ off9, i = .ld dr off9 ∧ s.pc + sext off9 = 0xFE00) ∨
      (∃ base off6, i = .ldr dr base off6 ∧ s.reg base + sext off6 = 0xFE00) ∨
      (∃ off9, i = .ldi dr off9 ∧ s.pc + sext off9 ≠ 0xFE00 ∧ s.cell (s.pc + sext off9) = 0xFE00)) :
    exec i s = (memRead kbsr s).andThen fun v s' => .next (writeResult dr v s') := by
  obtain ⟨off9, rfl, ha⟩ | ⟨base, off6, rfl, ha⟩ | ⟨off9, rfl, hp, ha⟩ := hi
  · rw [exec_ld, ha]
    rfl
  · rw [exec_ldr, ha]
    rfl
  · rw [exec_ldi, memRead_plain s hp, Effect.andThen_done, ha]
    rfl

/-- Settles O28: the three loads are one read of 0xFE00 whose word goes into DR. -/
theorem keyboardLoadsReportThePoll : Obligations.KeyboardLoadsReportThePoll := by
  intro i dr s hi
  rw [keyboardLoad_exec hi]
  refine ⟨fun b h hp => ?present, fun h hp => ?absent, fun h hp => ?fail, fun hp => ?silent⟩
  case present =>
    obtain ⟨hstatus, hdata, hkept⟩ := presentCells b (s.setHost h)
    rw [memRead_kbsr_present hp, Effect.andThen_done]
    exact ⟨_, rfl, writeResult_reg_same dr _ _, rfl, hstatus, hdata, hkept, writeResult_regsKept dr _ _, rfl, rfl, rfl⟩
  case absent =>
    rw [memRead_kbsr_absent hp, Effect.andThen_done]
    exact ⟨_, rfl, writeResult_reg_same dr _ _, rfl, memWrite_cell_same kbsr 0x0000 (s.setHost h),
      memWrite_cellsKept kbsr 0x0000 (s.setHost h), writeResult_regsKept dr _ _, rfl, rfl, rfl⟩
  case fail =>
    rw [memRead_kbsr_fail hp, Effect.andThen_fatal]
    exact ⟨_, rfl, setStatus_onlyStatusChanged _ _⟩
  case silent => rw [memRead_kbsr_silent hp, Effect.andThen_stuck]

end Sys2Proof.Machine
end

section
/-! PROOFS. Branches and calls (41_control.md R109-R113). -/
namespace Sys2Proof.Machine

/-- Settles O11: the mask and COND, flag by flag. -/
theorem branchMaskSelectsNamedFlags : Obligations.BranchMaskSelectsNamedFlags := by
  intro n z p c
  cases c <;> revert n z p <;> decide

theorem branchIf_onlyPcChanged (n z p : Bool) (off9 : BitVec 9) (s : State) :
    OnlyPcChanged (if nzpBits n z p &&& s.cond.bits ≠ 0 then s.pc + sext off9 else s.pc) s
      (branchIf n z p off9 s) := by
  unfold branchIf branchTaken
  by_cases hflag : nzpBits n z p &&& s.cond.bits ≠ 0
  · rw [if_pos hflag, if_pos (decide_eq_true hflag)]
    exact setPc_onlyPcChanged _ s
  · rw [if_neg hflag, if_neg (by simpa using hflag)]
    exact setPc_onlyPcChanged s.pc s

theorem exec_br (n z p : Bool) (off9 : BitVec 9) (s : State) :
    exec (.br n z p off9) s = .next (branchIf n z p off9 s) := rfl

theorem exec_nop (off9 : BitVec 9) (s : State) : exec (.nop off9) s = .next s :=
  congrArg Host.Outcome.next (branchIf_no_flag off9 s)

/-- Settles O16: BR is one `branchIf`, and NOP's is never taken. -/
theorem branchAddsTheOffsetWhenItsFlagIsSet : Obligations.BranchAddsTheOffsetWhenItsFlagIsSet := by
  intro n z p off9 s
  exact ⟨⟨_, exec_br n z p off9 s, branchIf_onlyPcChanged n z p off9 s⟩,
    ⟨_, exec_nop off9 s, setPc_onlyPcChanged s.pc s⟩⟩

/-- Settles O31: the arms of the second spellings are those of JMP and BR with R7 and NZP = 000 written in. -/
theorem secondSpellingsRunTheSame : Obligations.SecondSpellingsRunTheSame := by
  intro off9 s
  exact ⟨(exec_ret s).trans (exec_jmp .r7 s).symm, rfl⟩

theorem exec_jsr (off11 : BitVec 11) (s : State) :
    exec (.jsr off11) s = .next ((linkR7 s).setPc (s.pc + sext off11)) := rfl

theorem exec_jsrr (base : Reg) (s : State) :
    exec (.jsrr base) s = .next ((linkR7 s).setPc ((linkR7 s).reg base)) := rfl

@[simp] theorem linkR7_reg_r7 (s : State) : (linkR7 s).reg .r7 = s.pc := s.setReg_reg_same .r7 s.pc

theorem linkR7_reg_other (s : State) {r : Reg} (h : r ≠ .r7) : (linkR7 s).reg r = s.reg r :=
  s.setReg_reg_other s.pc h

theorem linkR7_regsKept (s : State) : RegsKept [.r7] s (linkR7 s) :=
  fun _ hr => linkR7_reg_other s (List.ne_of_not_mem_cons hr)

/-- Settles O18: the link, then one `setPc`. -/
theorem jsrLinksAndJumps : Obligations.JsrLinksAndJumps := by
  intro off11 s
  exact ⟨_, exec_jsr off11 s, linkR7_reg_r7 s, rfl, linkR7_regsKept s, fun _ _ => rfl, rfl, rfl, rfl⟩

/-- Settles O19: the base is read after the link, so R7 gives the linked PC (D12). -/
theorem jsrrReadsTheBaseAfterTheLink : Obligations.JsrrReadsTheBaseAfterTheLink := by
  intro base s
  refine ⟨_, exec_jsrr base s, linkR7_reg_r7 s, ?_, linkR7_regsKept s, fun _ _ => rfl, rfl, rfl, rfl⟩
  rw [State.setPc_pc]
  split
  · next hbase => rw [hbase, linkR7_reg_r7]
  · next hbase => exact linkR7_reg_other s hbase

/-- Settles O20: RET jumps to R7, which holds what JSR linked. -/
theorem returnGoesBehindTheCall : Obligations.ReturnGoesBehindTheCall := by
  intro off11 s t u hjsr hu
  rw [exec_jsr] at hjsr
  cases hjsr
  exact ⟨_, exec_ret u, hu.trans (linkR7_reg_r7 s)⟩

end Sys2Proof.Machine
end

section
/-! PROOFS. GETC, OUT, IN and HALT (43_trap.md R141, R142, R144, R146): what each answers, from what the host
answers. -/
namespace Sys2Proof.Machine

/-! ### One byte written -/

/-- The low byte of the model is bits [7:0] (R142). -/
theorem lowByte_eq_setWidth (w : Word) : lowByte w = w.setWidth 8 := (BitVec.setWidth_eq_extractLsb' (by decide)).symm

theorem settleWrite_accepted {b : Byte} {s : State} (h : (hostPutByte b s.host).1 = .ok) :
    settleWrite (putByte b s) = s.setHost (hostPutByte b s.host).2 := by
  rw [putByte, h]
  rfl

theorem settleWrite_refused {b : Byte} {s : State} (h : (hostPutByte b s.host).1 = .fail) :
    settleWrite (putByte b s) = raiseFatal .ioError (s.setHost (hostPutByte b s.host).2) := by
  rw [putByte, h]
  rfl

theorem hostPutByte_accepted_output {b : Byte} {h : HostLink} (hw : (hostPutByte b h).1 = .ok) :
    (hostPutByte b h).2.output = h.output ++ [b] := by
  obtain ⟨-, ⟨-, ho⟩ | ⟨hf, -⟩⟩ := hostPutByte_cases b h
  · exact ho
  · cases hw.symm.trans hf

theorem hostPutByte_refused_output {b : Byte} {h : HostLink} (hw : (hostPutByte b h).1 = .fail) :
    (hostPutByte b h).2.output = h.output := by
  obtain ⟨-, ⟨hf, -⟩ | ⟨-, ho⟩⟩ := hostPutByte_cases b h
  · cases hw.symm.trans hf
  · exact ho

/-! ### GETC, OUT and HALT -/

theorem exec_getc_answered {s : State} {a : GetAnswer} {h : HostLink} (hg : hostGetByte s.host = some (a, h)) :
    exec .getc s = .next (getcAnswer a (s.setHost h)) := by
  simp only [exec, execGetc, routineGetc, hg]

theorem exec_getc_silent {s : State} (hg : hostGetByte s.host = none) : exec .getc s = .fault .hostSilent := by
  simp only [exec, execGetc, routineGetc, hg]

theorem setReg_regsKept (r : Reg) (v : Word) (s : State) : RegsKept [r] s (s.setReg r v) :=
  fun _ hq => s.setReg_reg_other v (List.ne_of_not_mem_cons hq)

/-- Settles O33: R0 is written from the byte, a failure sets the status alone. -/
theorem getcReadsOneByte : Obligations.GetcReadsOneByte := by
  intro s
  refine ⟨fun b h hg => ?byte, fun h hg => ?fail, exec_getc_silent⟩
  case byte =>
    obtain ⟨-, houtput⟩ := hostGetByte_streams hg
    exact ⟨_, exec_getc_answered hg, State.setReg_reg_same _ _ _, setReg_regsKept _ _ (s.setHost h), fun _ _ => rfl,
      rfl, rfl, rfl, rfl, houtput⟩
  case fail => exact ⟨_, exec_getc_answered hg, setStatus_onlyStatusChanged _ _⟩

theorem exec_out (s : State) : exec .out s = .next (settleWrite (putByte ((s.reg .r0).setWidth 8) s)) := by
  rw [← lowByte_eq_setWidth]
  rfl

/-- Settles O34: OUT is one write. -/
theorem outEmitsTheLowByteOfR0 : Obligations.OutEmitsTheLowByteOfR0 := by
  intro s w
  refine ⟨fun hw => ?accepted, fun hw => ?refused⟩
  case accepted =>
    obtain ⟨hinput, -⟩ := hostPutByte_cases ((s.reg .r0).setWidth 8) s.host
    rw [exec_out, settleWrite_accepted hw]
    exact ⟨_, rfl, setHost_onlyHostChanged _ s, hostPutByte_accepted_output hw, hinput⟩
  case refused =>
    rw [exec_out, settleWrite_refused hw]
    exact ⟨_, rfl, setStatus_onlyStatusChanged _ _, hostPutByte_refused_output hw⟩

theorem exec_halt (s : State) : exec .halt s = .next (s.setStatus .halted) := rfl

/-- Settles O41: HALT is one `setStatus`. -/
theorem haltSetsTheStatusAlone : Obligations.HaltSetsTheStatusAlone := by
  intro s
  exact ⟨_, exec_halt s, setStatus_onlyStatusChanged .halted s⟩

/-! ### IN -/

section
variable {s s' : State}

theorem exec_in_answered {a : GetAnswer} {h : HostLink} (hp : putBytes Config.inPrompt s = (.ok, s'))
    (hg : hostGetByte s'.host = some (a, h)) : exec .in_ s = .next (inAnswer a (s'.setHost h)) := by
  simp only [exec, execIn, routineIn, hp, hg]

theorem exec_in_silent (hp : putBytes Config.inPrompt s = (.ok, s')) (hg : hostGetByte s'.host = none) :
    exec .in_ s = .fault .hostSilent := by
  simp only [exec, execIn, routineIn, hp, hg]

theorem exec_in_prompt_fails (hp : putBytes Config.inPrompt s = (.fail, s')) :
    exec .in_ s = .next (raiseFatal .ioError s') := by
  simp only [exec, execIn, routineIn, hp]

end

theorem putBytes_cons_ok {b : Byte} {s s' : State} (bs : List Byte) (h : putByte b s = (.ok, s')) :
    putBytes (b :: bs) s = putBytes bs s' := by
  simp only [putBytes, h]

theorem putBytes_cons_fail {b : Byte} {s s' : State} (bs : List Byte) (h : putByte b s = (.fail, s')) :
    putBytes (b :: bs) s = (.fail, s') := by
  simp only [putBytes, h]

/-- A series of writes puts out no more than its bytes. -/
theorem putBytes_output_isPrefix (bs : List Byte) (s : State) :
    (putBytes bs s).2.host.output <+: s.host.output ++ bs := by
  induction bs generalizing s with
  | nil => exact List.prefix_append _ _
  | cons b rest ih =>
    rcases hput : putByte b s with ⟨k, s'⟩
    cases k with
    | ok =>
      rw [putBytes_cons_ok rest hput]
      simpa [putByte_ok hput] using ih s'
    | fail =>
      rw [putBytes_cons_fail rest hput, putByte_fail hput]
      exact List.prefix_append _ _

theorem WriteFrame.kept {s t : State} (h : WriteFrame s t) : RegsKept [] s t ∧ CellsKept [] s t :=
  ⟨fun r _ => congrArg (·.read r) h.regs, fun a _ => congrArg (·.read a) h.mem⟩

/-- Settles O35: the prompt is a series of writes, which keeps all but the host's side; the answer to the read
then writes R0 and echoes, or is fatal. -/
theorem inPromptsReadsAndEchoes : Obligations.InPromptsReadsAndEchoes := by
  intro s
  refine ⟨fun s' b h hp hg => ?byte, fun s' h hp hg => ?readFails, fun s' hp hg => exec_in_silent hp hg,
    fun s' hp => ?promptFails⟩
  all_goals
    have hw : WriteFrame s s' := by simpa [hp] using putBytes_frame Config.inPrompt s
    obtain ⟨hregs, hcells⟩ := hw.kept
  case byte =>
    obtain ⟨-, hread⟩ := hostGetByte_streams hg
    have hprompt : h.output = s.host.output ++ Config.inPrompt := hread.trans (putBytes_ok hp)
    have hr0 (q : Reg) (hq : q ∉ [Reg.r0]) : ((s'.setHost h).setReg .r0 (zext8 b)).reg q = s.reg q :=
      (setReg_regsKept .r0 _ (s'.setHost h) q hq).trans (hregs q List.not_mem_nil)
    rw [exec_in_answered hp hg, inAnswer]
    refine ⟨fun he => ?echoed, fun he => ?echoFails⟩
    case echoed =>
      rw [settleWrite_accepted he]
      exact ⟨_, rfl, State.setReg_reg_same (s'.setHost h) .r0 (zext8 b), hr0, hcells, hw.cond, hw.pc, hw.status, rfl,
        hprompt ▸ hostPutByte_accepted_output he⟩
    case echoFails =>
      rw [settleWrite_refused he]
      exact ⟨_, rfl, State.setReg_reg_same (s'.setHost h) .r0 (zext8 b), hr0, hcells, hw.cond, hw.pc, rfl,
        hprompt ▸ hostPutByte_refused_output he⟩
  case readFails =>
    obtain ⟨-, hread⟩ := hostGetByte_streams hg
    exact ⟨_, exec_in_answered hp hg, setStatus_onlyStatusChanged _ _, hregs, hcells, hw.cond, hw.pc,
      hread.trans (putBytes_ok hp)⟩
  case promptFails =>
    have hle : s'.host.output <+: s.host.output ++ Config.inPrompt := by
      simpa [hp] using putBytes_output_isPrefix Config.inPrompt s
    exact ⟨_, exec_in_prompt_fails hp, setStatus_onlyStatusChanged _ _, hregs, hcells, hw.cond, hw.pc, hw.output, hle⟩

end Sys2Proof.Machine
end

section
/-! PROOFS. PUTS and PUTSP (43_trap.md R143, R145): the two loops have one shape, from which come the agreement with
the pseudocode's loops and the exact output of a string. -/
namespace Sys2Proof.Machine

/-! ### The shape of a string loop -/

/-- A loop that reads cells from `a` on, ends at the first cell that `ends` accepts, and writes the `bytes` of every
cell before it, each turn with one less of the cells it may read. -/
structure IsStringLoop (loop : Nat → Word → State → Host.Outcome State Fault Refusal) (ends : Word → Prop)
    (bytes : Word → List Byte) : Prop where
  zero (a : Word) (s t : State) : loop 0 a s ≠ .next t
  stuck {n : Nat} {a : Word} {s t : State} {f : Fault} : memRead a s = .stuck f → loop (n + 1) a s ≠ .next t
  terminator {n : Nat} {a c : Word} {s s' : State} : memRead a s = .done c s' → ends c → loop (n + 1) a s = .next s'
  readFails {n : Nat} {a : Word} {s s' : State} {r : FatalReason} :
    memRead a s = .fatal r s' → loop (n + 1) a s = .next (raiseFatal r s')
  writeFails {n : Nat} {a c : Word} {s s' u : State} : memRead a s = .done c s' → ¬ ends c →
    putBytes (bytes c) s' = (.fail, u) → loop (n + 1) a s = .next (raiseFatal .ioError u)
  emit {n : Nat} {a c : Word} {s s' u : State} : memRead a s = .done c s' → ¬ ends c →
    putBytes (bytes c) s' = (.ok, u) → loop (n + 1) a s = loop n (a + 1) u

/-- PUTS (R143): a zero cell ends it, one byte goes out for any other. -/
theorem putsLoop_isStringLoop : IsStringLoop putsLoop (fun c => c = 0x0000) (fun c => [lowByte c]) where
  zero _ _ _ := by simp [putsLoop]
  stuck hm := by simp [putsLoop, hm]
  terminator hm hc := by simp [putsLoop, hm, hc]
  readFails hm := by simp [putsLoop, hm]
  writeFails hm hc hp := by
    rw [putBytes_single] at hp
    simp only [putsLoop, hm, Effect.andThen_done, if_neg hc, hp]
  emit hm hc hp := by
    rw [putBytes_single] at hp
    simp only [putsLoop, hm, Effect.andThen_done, if_neg hc, hp]

/-- PUTSP (R145): a zero low byte ends it, one byte or two go out for any other cell. -/
theorem putspLoop_isStringLoop : IsStringLoop putspLoop (fun c => lowByte c = 0x00) packedBytes where
  zero _ _ _ := by simp [putspLoop]
  stuck hm := by simp [putspLoop, hm]
  terminator hm hc := by simp [putspLoop, hm, hc]
  readFails hm := by simp [putspLoop, hm]
  writeFails hm hc hp := by simp only [putspLoop, hm, Effect.andThen_done, if_neg hc, hp]
  emit hm hc hp := by simp only [putspLoop, hm, Effect.andThen_done, if_neg hc, hp]

/-- What a turn of a loop that answers next has done. -/
theorem IsStringLoop.cases {loop : Nat → Word → State → Host.Outcome State Fault Refusal} {ends : Word → Prop}
    {bytes : Word → List Byte} (hl : IsStringLoop loop ends bytes) {n : Nat} {a : Word} {s t : State}
    (h : loop (n + 1) a s = .next t) :
    (∃ c, memRead a s = .done c t ∧ ends c) ∨
    (∃ r s', memRead a s = .fatal r s' ∧ t = raiseFatal r s') ∨
    (∃ c s' u, memRead a s = .done c s' ∧ ¬ ends c ∧ putBytes (bytes c) s' = (.fail, u) ∧
      t = raiseFatal .ioError u) ∨
    (∃ c s' u, memRead a s = .done c s' ∧ ¬ ends c ∧ putBytes (bytes c) s' = (.ok, u) ∧
      loop n (a + 1) u = .next t) := by
  cases hm : memRead a s with
  | stuck f => exact absurd h (hl.stuck hm)
  | fatal r s' =>
    rw [hl.readFails hm] at h
    cases h
    exact .inr (.inl ⟨r, s', rfl, rfl⟩)
  | done c s' =>
    by_cases hc : ends c
    · rw [hl.terminator hm hc] at h
      cases h
      exact .inl ⟨c, rfl, hc⟩
    · rcases hp : putBytes (bytes c) s' with ⟨k, u⟩
      cases k with
      | fail =>
        rw [hl.writeFails hm hc hp] at h
        cases h
        exact .inr (.inr (.inl ⟨c, s', u, rfl, hc, hp, rfl⟩))
      | ok =>
        rw [hl.emit hm hc hp] at h
        exact .inr (.inr (.inr ⟨c, s', u, rfl, hc, hp, h⟩))

/-! ### PUTS and the loop of its pseudocode -/

theorem putsRun_of_putsLoop {n : Nat} {a : Word} {s t : State} (h : putsLoop n a s = .next t) :
    ∃ k, PutsRun k a s t := by
  induction n generalizing a s with
  | zero => exact absurd h (putsLoop_isStringLoop.zero a s t)
  | succ n ih =>
    obtain ⟨c, hm, rfl⟩ | ⟨r, s', hm, rfl⟩ | ⟨c, s', u, hm, hc, hp, rfl⟩ | ⟨c, s', u, hm, hc, hp, hrest⟩ :=
      putsLoop_isStringLoop.cases h
    · exact ⟨0, .terminator hm⟩
    · exact ⟨0, .readFails hm⟩
    · exact ⟨0, .writeFails hm hc ((putBytes_single _ _).symm.trans hp)⟩
    · obtain ⟨k, hrun⟩ := ih hrest
      exact ⟨k + 1, .emit hm hc ((putBytes_single _ _).symm.trans hp) hrun⟩

theorem PutsRun.putsLoop_eq {k n : Nat} {a : Word} {s t : State} (h : PutsRun k a s t) (hn : k < n) :
    putsLoop n a s = .next t := by
  induction h generalizing n <;> obtain ⟨n, rfl⟩ := Nat.exists_eq_add_one_of_ne_zero (Nat.ne_zero_of_lt hn)
  case terminator hm => exact putsLoop_isStringLoop.terminator hm rfl
  case readFails hm => exact putsLoop_isStringLoop.readFails hm
  case writeFails hm hc hp => exact putsLoop_isStringLoop.writeFails hm hc ((putBytes_single _ _).trans hp)
  case emit hm hc hp _ ih =>
    rw [putsLoop_isStringLoop.emit hm hc ((putBytes_single _ _).trans hp)]
    exact ih (Nat.lt_of_succ_lt_succ hn)

/-- Settles O36: a loop that answers next is a run, and a run within the cells the model walks is the loop's. -/
theorem putsRunsItsLoop : Obligations.PutsRunsItsLoop := by
  intro s t
  exact ⟨putsRun_of_putsLoop, fun _ hn hrun => hrun.putsLoop_eq hn⟩

/-! ### PUTSP and the loop of its pseudocode -/

theorem packedBytes_low {c : Word} (h : highByte c = 0x00) : packedBytes c = [lowByte c] := if_pos h

theorem packedBytes_both {c : Word} (h : highByte c ≠ 0x00) : packedBytes c = [lowByte c, highByte c] := if_neg h

theorem PutspRun.ofFail {a c : Word} {s s' u : State} (hm : memRead a s = .done c s') (hc : lowByte c ≠ 0x00)
    (hp : putBytes (packedBytes c) s' = (.fail, u)) : PutspRun 0 a s (raiseFatal .ioError u) := by
  by_cases hhigh : highByte c = 0x00
  · rw [packedBytes_low hhigh, putBytes_single] at hp
    exact .lowFails hm hc hp
  · rw [packedBytes_both hhigh] at hp
    rcases hlow : putByte (lowByte c) s' with ⟨k, v⟩
    cases k with
    | ok =>
      rw [putBytes_cons_ok _ hlow, putBytes_single] at hp
      exact .highFails hm hc hlow hhigh hp
    | fail =>
      rw [putBytes_cons_fail _ hlow] at hp
      cases hp
      exact .lowFails hm hc hlow

theorem PutspRun.ofEmit {n : Nat} {a c : Word} {s s' u t : State} (hm : memRead a s = .done c s')
    (hc : lowByte c ≠ 0x00) (hp : putBytes (packedBytes c) s' = (.ok, u)) (hrun : PutspRun n (a + 1) u t) :
    PutspRun (n + 1) a s t := by
  by_cases hhigh : highByte c = 0x00
  · rw [packedBytes_low hhigh, putBytes_single] at hp
    exact .emitLow hm hc hp hhigh hrun
  · rw [packedBytes_both hhigh] at hp
    rcases hlow : putByte (lowByte c) s' with ⟨k, v⟩
    cases k with
    | ok =>
      rw [putBytes_cons_ok _ hlow, putBytes_single] at hp
      exact .emitBoth hm hc hlow hhigh hp hrun
    | fail =>
      rw [putBytes_cons_fail _ hlow] at hp
      cases hp

theorem putspRun_of_putspLoop {n : Nat} {a : Word} {s t : State} (h : putspLoop n a s = .next t) :
    ∃ k, PutspRun k a s t := by
  induction n generalizing a s with
  | zero => exact absurd h (putspLoop_isStringLoop.zero a s t)
  | succ n ih =>
    obtain ⟨c, hm, hc⟩ | ⟨r, s', hm, rfl⟩ | ⟨c, s', u, hm, hc, hp, rfl⟩ | ⟨c, s', u, hm, hc, hp, hrest⟩ :=
      putspLoop_isStringLoop.cases h
    · exact ⟨0, .terminator hm hc⟩
    · exact ⟨0, .readFails hm⟩
    · exact ⟨0, .ofFail hm hc hp⟩
    · obtain ⟨k, hrun⟩ := ih hrest
      exact ⟨k + 1, .ofEmit hm hc hp hrun⟩

theorem PutspRun.putspLoop_eq {k n : Nat} {a : Word} {s t : State} (h : PutspRun k a s t) (hn : k < n) :
    putspLoop n a s = .next t := by
  induction h generalizing n <;> obtain ⟨n, rfl⟩ := Nat.exists_eq_add_one_of_ne_zero (Nat.ne_zero_of_lt hn)
  case terminator hm hc => exact putspLoop_isStringLoop.terminator hm hc
  case readFails hm => exact putspLoop_isStringLoop.readFails hm
  case lowFails c _ _ _ hm hc hlow =>
    refine putspLoop_isStringLoop.writeFails hm hc ?_
    by_cases hhigh : highByte c = 0x00
    · rw [packedBytes_low hhigh, putBytes_single, hlow]
    · rw [packedBytes_both hhigh, putBytes_cons_fail _ hlow]
  case highFails hm hc hlow hhigh hp =>
    refine putspLoop_isStringLoop.writeFails hm hc ?_
    rw [packedBytes_both hhigh, putBytes_cons_ok _ hlow, putBytes_single, hp]
  case emitLow hm hc hlow hhigh _ ih =>
    have hp := (putBytes_single _ _).trans hlow
    rw [← packedBytes_low hhigh] at hp
    rw [putspLoop_isStringLoop.emit hm hc hp]
    exact ih (Nat.lt_of_succ_lt_succ hn)
  case emitBoth hm hc hlow hhigh hp _ ih =>
    have hboth := (putBytes_cons_ok _ hlow).trans ((putBytes_single _ _).trans hp)
    rw [← packedBytes_both hhigh] at hboth
    rw [putspLoop_isStringLoop.emit hm hc hboth]
    exact ih (Nat.lt_of_succ_lt_succ hn)

/-- A cell that PUTSP emits is not the one it polls at. -/
theorem ne_kbsr_of_emitted {a c : Word} {s s' : State} (hm : memRead a s = .done c s') (hc : lowByte c ≠ 0x00) :
    a ≠ kbsr := by
  rintro rfl
  exact hc (lowByte_memRead_kbsr hm)

/-- No run of PUTSP's loop goes past 0xFE00. -/
theorem PutspRun.le_cellsToKbsr {k : Nat} {a : Word} {s t : State} (h : PutspRun k a s t) : k ≤ cellsToKbsr a := by
  induction h with
  | terminator | readFails | lowFails | highFails => exact Nat.zero_le _
  | emitLow hm hc _ _ _ ih | emitBoth hm hc _ _ _ _ ih =>
    rw [← cellsToKbsr_succ (ne_kbsr_of_emitted hm hc)]
    exact Nat.succ_le_succ ih

/-- Settles O38: as for PUTS, and the cells the model walks cover every run. -/
theorem putspIsItsLoop : Obligations.PutspIsItsLoop := by
  intro s t
  refine ⟨putspRun_of_putspLoop, fun ⟨k, hrun⟩ => ?_⟩
  exact hrun.putspLoop_eq (Nat.lt_of_le_of_lt hrun.le_cellsToKbsr (cellsToKbsr_lt_stringFuel _ s))

/-! ### Writes the host accepts -/

/-- Whether writes are accepted does not depend on what is already written. -/
theorem HostLink.acceptsNext_output (n : Nat) (h : HostLink) (out : List Byte) :
    HostLink.acceptsNext n { h with output := out } = HostLink.acceptsNext n h := by
  induction n generalizing h with
  | zero => rfl
  | succ n ih =>
    have hdraw : HostLink.drawWrite { h with output := out } =
        (h.drawWrite.1, { h.drawWrite.2 with output := out }) := by
      unfold HostLink.drawWrite
      cases h.writes <;> rfl
    simp only [HostLink.acceptsNext, hdraw, ih]

theorem putByte_of_acceptsNext {n : Nat} {s : State} (b : Byte) (h : s.host.acceptsNext (n + 1) = true) :
    ∃ k, putByte b s = (.ok, s.setHost k) ∧ k.acceptsNext n = true := by
  obtain ⟨hok, hrest⟩ : s.host.drawWrite.1 = .ok ∧ s.host.drawWrite.2.acceptsNext n = true := by
    simpa [HostLink.acceptsNext] using h
  rcases hd : s.host.drawWrite with ⟨w, k⟩
  rw [hd] at hok hrest
  subst hok
  refine ⟨{ k with output := k.output ++ [b] }, ?_, (HostLink.acceptsNext_output n k _).trans hrest⟩
  simp only [putByte, hostPutByte, hd]

theorem putBytes_of_acceptsNext (bs : List Byte) {n : Nat} {s : State}
    (h : s.host.acceptsNext (bs.length + n) = true) :
    ∃ k, putBytes bs s = (.ok, s.setHost k) ∧ k.acceptsNext n = true := by
  induction bs generalizing s with
  | nil => exact ⟨s.host, rfl, by simpa using h⟩
  | cons b rest ih =>
    rw [List.length_cons, Nat.succ_add] at h
    obtain ⟨k, hput, hk⟩ := putByte_of_acceptsNext b h
    rw [putBytes_cons_ok rest hput]
    exact ih (s := s.setHost k) hk

/-! ### The string a loop puts out -/

theorem cellsFrom_setHost (s : State) (h : HostLink) (a : Word) (n : Nat) :
    cellsFrom (s.setHost h) a n = cellsFrom s a n := by
  induction n generalizing a with
  | zero => rfl
  | succ n ih => rw [cellsFrom, cellsFrom, ih, State.setHost_cell]

theorem length_cellsFrom (s : State) (a : Word) (n : Nat) : (cellsFrom s a n).length = n := by
  induction n generalizing a with
  | zero => rfl
  | succ n ih => rw [cellsFrom, List.length_cons, ih]

theorem add_ofNat_succ (a : Word) (i : Nat) : a + BitVec.ofNat 16 (i + 1) = a + 1 + BitVec.ofNat 16 i := by
  rw [BitVec.add_assoc, Nat.add_comm, BitVec.ofNat_add]
  rfl

/-- With a terminator before any keyboard cell, and writes accepted, a loop puts out the bytes of the cells before it
and changes the host's side alone. -/
theorem IsStringLoop.emits {loop : Nat → Word → State → Host.Outcome State Fault Refusal} {ends : Word → Prop}
    {bytes : Word → List Byte} (hl : IsStringLoop loop ends bytes) {k n : Nat} {a : Word} {s : State} (hn : k < n)
    (hcells : ∀ i, i < k → a + BitVec.ofNat 16 i ≠ kbsr ∧ ¬ ends (s.cell (a + BitVec.ofNat 16 i)))
    (hlast : a + BitVec.ofNat 16 k ≠ kbsr) (hend : ends (s.cell (a + BitVec.ofNat 16 k)))
    (hw : s.host.acceptsNext ((cellsFrom s a k).flatMap bytes).length = true) :
    ∃ h, loop n a s = .next (s.setHost h) ∧ h.output = s.host.output ++ (cellsFrom s a k).flatMap bytes ∧
      h.input = s.host.input := by
  induction k generalizing n a s with
  | zero =>
    obtain ⟨n, rfl⟩ := Nat.exists_eq_add_one_of_ne_zero (Nat.ne_zero_of_lt hn)
    rw [BitVec.add_zero] at hlast hend
    refine ⟨s.host, hl.terminator (memRead_plain s hlast) hend, ?_, rfl⟩
    rw [cellsFrom, List.flatMap_nil, List.append_nil]
  | succ k ih =>
    obtain ⟨n, rfl⟩ := Nat.exists_eq_add_one_of_ne_zero (Nat.ne_zero_of_lt hn)
    obtain ⟨ha, hc⟩ := hcells 0 (Nat.succ_pos k)
    rw [BitVec.add_zero] at ha hc
    rw [cellsFrom, List.flatMap_cons, List.length_append] at hw
    obtain ⟨g, hput, hg⟩ := putBytes_of_acceptsNext (bytes (s.cell a)) hw
    have hout := putBytes_ok hput
    have hin : g.input = s.host.input := by simpa [hput] using (putBytes_frame (bytes (s.cell a)) s).input
    rw [← cellsFrom_setHost s g] at hg
    obtain ⟨h, hloop, ho, hi⟩ := ih (s := s.setHost g) (Nat.lt_of_succ_lt_succ hn)
      (fun i hik => add_ofNat_succ a i ▸ hcells (i + 1) (Nat.succ_lt_succ hik)) (add_ofNat_succ a k ▸ hlast)
      (add_ofNat_succ a k ▸ hend) hg
    refine ⟨h, (hl.emit (memRead_plain s ha) hc hput).trans hloop, ?_, hi.trans hin⟩
    rw [ho, hout, cellsFrom_setHost, cellsFrom, List.flatMap_cons, List.append_assoc]

theorem lt_stringFuel {k : Nat} (hk : k < 65536) (s : State) : k < stringFuel s := by
  unfold stringFuel
  omega

/-- Settles O37: PUTS is a string loop that puts out the low byte of each cell. -/
theorem putsEmitsTheString : Obligations.PutsEmitsTheString := by
  intro s k hk hcells hlast hend hw
  have hbytes : (cellsFrom s (s.reg .r0) k).flatMap (fun c => [lowByte c]) =
      (cellsFrom s (s.reg .r0) k).map (fun c => c.setWidth 8) := by
    simp only [lowByte_eq_setWidth]
    exact List.flatMap_pure_eq_map _ _
  obtain ⟨h, hloop, hout, hin⟩ := putsLoop_isStringLoop.emits (lt_stringFuel hk s) hcells hlast hend
    (by rwa [hbytes, List.length_map, length_cellsFrom])
  exact ⟨_, hloop, hbytes ▸ hout, hin, fun _ _ => rfl, fun _ _ => rfl, rfl, rfl, rfl⟩

theorem emittedPair_eq_packedBytes (c : Word) : emittedPair c = packedBytes c := by
  rw [emittedPair, packedBytes, lowByte_eq_setWidth]
  rfl

/-- Settles O40: PUTSP is a string loop that puts out the packed bytes of each cell. -/
theorem putspEmitsThePackedString : Obligations.PutspEmitsThePackedString := by
  intro s k hk hcells hlast hend hw
  simp only [← lowByte_eq_setWidth] at hcells hend
  rw [funext emittedPair_eq_packedBytes] at hw ⊢
  obtain ⟨h, hloop, hout, hin⟩ := putspLoop_isStringLoop.emits (lt_stringFuel hk s) hcells hlast hend hw
  exact ⟨_, hloop, hout, hin, fun _ _ => rfl, fun _ _ => rfl, rfl, rfl, rfl⟩

end Sys2Proof.Machine
end

section
/-! PROOFS. The cycle (30_encoding.md R74, R75): what a fetch gives, and the step that runs it. -/
namespace Sys2Proof.Machine

/-! ### The fetch, by the end of its read -/

section
variable {s s' : State} {w : Word}

theorem fetch_of_done (hm : memRead s.pc s = .done w s') (htop : s.pc ≠ topAddress) :
    fetch s = .done w (s'.setPc (s.pc + 1)) := by
  simp only [fetch, hm, if_neg htop]

theorem fetch_of_top (hm : memRead s.pc s = .done w s') (htop : s.pc = topAddress) :
    fetch s = .fatal .pcOutOfRange s' := by
  simp only [fetch, hm, if_pos htop]

theorem fetch_of_fatal {r : FatalReason} (hm : memRead s.pc s = .fatal r s') : fetch s = .fatal r s' := by
  simp only [fetch, hm]

theorem fetch_of_stuck {f : Fault} (hm : memRead s.pc s = .stuck f) : fetch s = .stuck f := by
  simp only [fetch, hm]

theorem step_running (hr : s.status = .running) : step s = (fetch s).andThen fun w s' => exec (decode w) s' := by
  simp only [step, hr]

theorem step_of_fetched (hr : s.status = .running) (hf : fetch s = .done w s') : step s = exec (decode w) s' := by
  rw [step_running hr, hf, Effect.andThen_done]

theorem step_of_fetch_fatal {r : FatalReason} (hr : s.status = .running) (hf : fetch s = .fatal r s') :
    step s = .next (raiseFatal r s') := by
  rw [step_running hr, hf, Effect.andThen_fatal]

theorem step_halted (hr : s.status = .halted) : step s = .fault .halted := by
  simp only [step, hr]

theorem step_fatal {r : FatalReason} (hr : s.status = .fatal r) : step s = .fault (.fatal r) := by
  simp only [step, hr]

/-- Away from the two edges of the fetch, a step runs the word that PC addresses. -/
theorem step_plain (hr : s.status = .running) (hkb : s.pc ≠ kbsr) (htop : s.pc ≠ topAddress) :
    step s = exec (decode (s.cell s.pc)) (s.setPc (s.pc + 1)) :=
  step_of_fetched hr (fetch_of_done (memRead_plain s hkb) htop)

end

/-- Settles O47: the fetch by the end of its read, then what it fetched. -/
theorem stepRunsTheDecodedInstruction : Obligations.StepRunsTheDecodedInstruction := by
  intro s hr
  refine ⟨step_plain hr, fun hpc => ?top, fun w s' hpc hm => ?polled, fun r s' hpc hm => ?pollFails,
    fun f hpc hm => ?silent⟩
  case top =>
    have hkb : s.pc ≠ kbsr := by rw [hpc]; decide
    exact step_of_fetch_fatal hr (fetch_of_top (memRead_plain s hkb) hpc)
  case polled =>
    have htop : s.pc ≠ topAddress := by rw [hpc]; decide
    have hf := fetch_of_done (hpc.symm ▸ hm) htop
    rw [hpc] at hf
    exact step_of_fetched hr hf
  case pollFails => exact step_of_fetch_fatal hr (fetch_of_fatal (hpc.symm ▸ hm))
  case silent => rw [step_running hr, fetch_of_stuck (hpc.symm ▸ hm), Effect.andThen_stuck]

/-- Settles O49: the step by the status. -/
theorem stoppedEngineRunsNoCycle : Obligations.StoppedEngineRunsNoCycle := by
  intro s
  exact ⟨step_running, fun hr t h => hr (step_cases h).1, step_halted, fun _ => step_fatal⟩

/-- A word written to the cell that PC addresses is what the next step runs (R54). -/
theorem step_memWrite_pc {s : State} (w : Word) (hr : s.status = .running) (hkb : s.pc ≠ kbsr)
    (htop : s.pc ≠ topAddress) :
    step (memWrite s.pc w s) = exec (decode w) ((memWrite s.pc w s).setPc (s.pc + 1)) := by
  have hstep := step_plain (s := memWrite s.pc w s) hr hkb htop
  rwa [memWrite_pc, memWrite_cell_same] at hstep

/-- Settles O29: ST and STR write the cell that PC addresses, and keep PC and the status. -/
theorem storedInstructionIsFetchedNext : Obligations.StoredInstructionIsFetchedNext := by
  intro i sr s t hi hr hkb htop h
  have ht : t = memWrite s.pc (s.reg sr) s := by
    obtain ⟨off9, rfl, ha⟩ | ⟨base, off6, rfl, ha⟩ := hi
    · rw [exec_st, ha] at h
      cases h
      rfl
    · rw [exec_str, ha] at h
      cases h
      rfl
  subst ht
  exact step_memWrite_pc (s.reg sr) hr hkb htop

/-! ### A word as two bytes, high byte first (R46 (c)) -/

theorem wordOfBytes_halves (w : Word) : wordOfBytes (w.extractLsb' 8 8) (w.extractLsb' 0 8) = w :=
  BitVec.extractLsb'_append_extractLsb' (w := 8) (len := 8)

theorem ofNat_toNat_mod (w : Word) : BitVec.ofNat 16 (w.toNat % 2 ^ 16) = w := by
  rw [Nat.mod_eq_of_lt w.isLt, BitVec.ofNat_toNat, BitVec.setWidth_eq]

theorem decodeTableWord_toNat (w : Word) : decodeTableWord 16 w.toNat = some (decode w) := by
  simp only [decodeTableWord, ofNat_toNat_mod, decodeBytes, wordOfBytes_halves]

theorem withFetchWord_toNat (w : Word) (s : State) : s.withFetchWord 16 w.toNat = memWrite s.pc w s := by
  rw [State.withFetchWord, ofNat_toNat_mod]
  rfl

/-- Settles O48: the host's word is the word, and placing it writes it to the cell that PC addresses. -/
theorem placedWordRunsNext : Obligations.PlacedWordRunsNext := by
  intro w s
  refine ⟨decodeTableWord_toNat w, fun hr hkb htop => ?_⟩
  rw [withFetchWord_toNat]
  exact step_memWrite_pc w hr hkb htop

end Sys2Proof.Machine
end

section
/-! PROOFS. Memory as data, reset and boot (10_state.md R31, 20_memory.md R40, 70_reset_and_hazards.md
R240-R243). -/
namespace Sys2Proof.Machine

/-! ### The canonical form (log 22) -/

theorem Memory.wfFrom_cons {lo k : Nat} {v : Word} {rest : Memory} :
    Memory.wfFrom lo ((k, v) :: rest) = true ↔
      lo ≤ k ∧ k < 65536 ∧ v ≠ unlistedCell ∧ rest.wfFrom (k + 1) = true := by
  simp only [Memory.wfFrom, Bool.and_eq_true, decide_eq_true_eq, and_assoc]

/-- A cell below all that are listed. -/
theorem Memory.lookup_below {m : Memory} {lo j : Nat} (h : m.wfFrom lo = true) (hj : j < lo) :
    m.lookup j = unlistedCell := by
  induction m generalizing lo with
  | nil => rfl
  | cons c rest ih =>
    obtain ⟨k, v⟩ := c
    obtain ⟨hlo, -, -, hrest⟩ := Memory.wfFrom_cons.mp h
    rw [Memory.lookup, if_neg (by omega)]
    exact ih hrest (by omega)

/-- The first listed cell of a canonical memory is told from any other memory whose cells lie above it. -/
theorem Memory.lookup_head_ne {k : Nat} {v : Word} {rest m : Memory} (hv : v ≠ unlistedCell)
    (hm : m.wfFrom (k + 1) = true) : Memory.lookup ((k, v) :: rest) k ≠ m.lookup k := by
  rw [Memory.lookup, if_pos rfl, Memory.lookup_below hm (Nat.lt_succ_self k)]
  exact hv

theorem Memory.eq_of_lookup {m m' : Memory} {lo : Nat} (h : m.wfFrom lo = true) (h' : m'.wfFrom lo = true)
    (heq : ∀ j, j < 65536 → m.lookup j = m'.lookup j) : m = m' := by
  induction m generalizing lo m' with
  | nil =>
    match m' with
    | [] => rfl
    | (k, v) :: rest =>
      obtain ⟨-, hk, hv, -⟩ := Memory.wfFrom_cons.mp h'
      exact absurd (heq k hk).symm (Memory.lookup_head_ne (m := []) hv rfl)
  | cons c rest ih =>
    obtain ⟨k, v⟩ := c
    obtain ⟨hlo, hk, hv, hrest⟩ := Memory.wfFrom_cons.mp h
    match m' with
    | [] => exact absurd (heq k hk) (Memory.lookup_head_ne (m := []) hv rfl)
    | (k', v') :: rest' =>
      obtain ⟨hlo', hk', hv', hrest'⟩ := Memory.wfFrom_cons.mp h'
      obtain hlt | rfl | hgt := Nat.lt_trichotomy k k'
      · exact absurd (heq k hk) (Memory.lookup_head_ne hv (Memory.wfFrom_cons.mpr ⟨hlt, hk', hv', hrest'⟩))
      · have hhead : v = v' := by simpa [Memory.lookup] using heq k hk
        have htail : rest = rest' := ih hrest hrest' fun j hj => by
          by_cases hjk : j = k
          · rw [hjk, Memory.lookup_below hrest (Nat.lt_succ_self k), Memory.lookup_below hrest' (Nat.lt_succ_self k)]
          · simpa [Memory.lookup, hjk] using heq j hj
        rw [hhead, htail]
      · exact absurd (heq k' hk').symm (Memory.lookup_head_ne hv' (Memory.wfFrom_cons.mpr ⟨hgt, hk, hv, hrest⟩))

/-- Settles O53: an address is a number below 65536, so memories that read alike look up alike. -/
theorem canonicalMemoryIsWhatItReads : Obligations.CanonicalMemoryIsWhatItReads := by
  intro m m' h h' hread
  refine Memory.eq_of_lookup h h' fun j hj => ?_
  have hj' : (BitVec.ofNat 16 j).toNat = j := by rw [BitVec.toNat_ofNat, Nat.mod_eq_of_lt hj]
  simpa only [Memory.read, hj'] using hread (BitVec.ofNat 16 j)

/-! ### Reset (R31) -/

theorem reset_reg (r : Reg) : State.reset.reg r = 0x0000 := by
  cases r <;> rfl

/-- Settles O50: the fields of the reset state. -/
theorem resetStateIsTheTableOfR31 : Obligations.ResetStateIsTheTableOfR31 :=
  ⟨reset_reg, rfl, rfl, rfl, rfl, fun _ => rfl⟩

/-! ### The image (R242) -/

theorem imageWords_bigEndian (ws : List Word) : imageWords (ws.flatMap bigEndian) = some ws := by
  induction ws with
  | nil => rfl
  | cons w rest ih =>
    change (imageWords (rest.flatMap bigEndian)).map _ = _
    rw [ih, Option.map_some, wordOfBytes_halves]

theorem imageWords_odd : ∀ image : List Byte, image.length % 2 = 1 → imageWords image = none
  | [], h => by cases h
  | [_], _ => rfl
  | _ :: _ :: rest, h => by
    have hrest : rest.length % 2 = 1 := by
      simpa only [List.length_cons, Nat.add_assoc, Nat.add_mod_right] using h
    rw [imageWords, imageWords_odd rest hrest, Option.map_none]

/-- Words from `a` on leave every cell outside theirs. -/
theorem placeWords_read_outside {ws : List Word} {a b : Word} (m : Memory) (hfit : a.toNat + ws.length ≤ 65536)
    (hb : b.toNat < a.toNat ∨ a.toNat + ws.length ≤ b.toNat) : (placeWords ws a m).read b = m.read b := by
  induction ws generalizing a m with
  | nil => rfl
  | cons w rest ih =>
    rw [List.length_cons] at hfit hb
    have ha : (a + 1).toNat = (a.toNat + 1) % 65536 := BitVec.toNat_add a 1
    have hne : b ≠ a := by rintro rfl; omega
    rw [placeWords, ih _ (by omega) (by omega), Memory.read_write_other m w hne]

/-- Word i lies at `a + i`. -/
theorem placeWords_read_inside {ws : List Word} {a : Word} (m : Memory) (hfit : a.toNat + ws.length ≤ 65536) {i : Nat}
    (hi : i < ws.length) : (placeWords ws a m).read (a + BitVec.ofNat 16 i) = ws[i] := by
  induction ws generalizing a m i with
  | nil => exact absurd hi (Nat.not_lt_zero i)
  | cons w rest ih =>
    rw [List.length_cons] at hfit hi
    have ha : (a + 1).toNat = (a.toNat + 1) % 65536 := BitVec.toNat_add a 1
    have hrest : (a + 1).toNat + rest.length ≤ 65536 := by omega
    cases i with
    | zero =>
      rw [BitVec.add_zero, placeWords, placeWords_read_outside _ hrest (by omega), Memory.read_write_same]
      rfl
    | succ i =>
      rw [add_ofNat_succ, placeWords, ih _ hrest (Nat.lt_of_succ_lt_succ hi), List.getElem_cons_succ]

theorem boot_bigEndian {origin : Word} {ws : List Word} (hfit : origin.toNat + ws.length ≤ 65536) :
    boot ((origin :: ws).flatMap bigEndian) =
      .next { State.reset with mem := placeWords ws origin State.reset.mem } := by
  simp only [boot, imageWords_bigEndian, if_pos hfit]

theorem boot_pastTop {origin : Word} {ws : List Word} (hlong : 65536 < origin.toNat + ws.length) :
    boot ((origin :: ws).flatMap bigEndian) = .refused .imagePastTop := by
  simp only [boot, imageWords_bigEndian, if_neg (Nat.not_le.mpr hlong)]

/-- Settles O51: the words of the image are the ones placed, over the empty memory of the reset state. -/
theorem bootPlacesTheImage : Obligations.BootPlacesTheImage := by
  intro origin ws hfit
  exact ⟨_, boot_bigEndian hfit, fun i hi => placeWords_read_inside _ hfit hi,
    fun a ha => placeWords_read_outside _ hfit ha, reset_reg, rfl, rfl, rfl⟩

/-- Settles O52: the refusal by the image's words. -/
theorem bootRefusesBadImages : Obligations.BootRefusesBadImages := by
  refine ⟨rfl, fun image hodd => ?_, fun origin ws => boot_pastTop⟩
  simp only [boot, imageWords_odd image hodd]

end Sys2Proof.Machine
end
